-- ==== Sys2Proof/Word.lean ====
section
/-! DEFINITION. The word types of RLE-CORE: bytes, seven-bit fields, buffers (00_scope.md R6, R8, R9). -/

namespace Sys2Proof

/-- A buffer element, 8 bits, unsigned; bit 7 is the high bit (R6 `BYTE_W`, R8). -/
abbrev Byte := BitVec 8

/-- The value field of a literal or a run tag, and the low seven bits of a length byte (R6 `VAL_W`, R73). -/
abbrev Field := BitVec 7

/-- An ordered, finite sequence of bytes, indexed from 0 (R9). A buffer is a dense address space of its own
(R50), so the address of a byte is its position. -/
abbrev Buffer := List Byte

end Sys2Proof
end

