-- ==== Sys2Proof/Config.lean ====
section
/-! DEFINITION. The implementation parameters of 00_scope.md R6. The spec leaves no value free, so nothing here
is opaque; the one parameter it leaves open, `CAP`, is a field of State (log 2). -/

namespace Sys2Proof.Config

/-- `CHUNK`: what one continuation byte adds to a length (R6). -/
def chunk : Nat := 127

/-- `CONT_BYTE`: the continuation byte the encoder writes (R6). -/
def contByte : Byte := 0xFF

/-- `MARK`: the marker bit of a head byte, bit 7 (R6). -/
def mark : Byte := 0x80

/-- Bits 6..0, the value field (R10). -/
def fieldMask : Byte := 0x7F

/-- The default of `CAP`, which is `∞` (R6, R7), written `none`. -/
def defaultCap : Option Nat := none

end Sys2Proof.Config
end

