-- ==== Sys2Proof/Machine/Flags.lean ====
section
/-! DEFINITION. The tests the algorithms make. RLE-CORE stores no condition: each test is evaluated inside the
step that uses it (10_state.md R27). -/

namespace Sys2Proof.Machine

/-- "High bit set": `x[7] = 1`, that is `x >= 0x80` (R8). -/
def highBit (x : Byte) : Bool := x.msb

/-- More length than one terminator carries: the strict test `> 127` of the length encoder (R112, R113). -/
def overChunk (n : Nat) : Bool := decide (Config.chunk < n)

/-- A count or a buffer length is greater than `CAP` (R196). With `CAP = ∞` this is never so (R7). -/
def exceeds (cap : Option Nat) (n : Nat) : Bool :=
  match cap with
  | none => false
  | some c => decide (c < n)

/-- The encoder writes a literal: a run of 1 of a byte at most 0x7F (R135, R86). -/
def literalRun (n : Nat) (v : Byte) : Bool := n == 1 && !highBit v

end Sys2Proof.Machine
end

