-- ==== Sys2Proof/Machine/Operands.lean ====
section
/-! DEFINITION. The fields of a stream byte and how bytes are put together (30_encoding.md R72 to R76). There is
no sign extension, scaling or shifting (R74). -/

namespace Sys2Proof.Machine

/-- `x[6:0]`. -/
def lowField (x : Byte) : Field := x.extractLsb' 0 7

/-- A seven-bit field read as a byte, zero-extended (R74). -/
def fieldByte (v : Field) : Byte := v.setWidth 8

/-- `v | 0x80`: the tag of a run of `v` (R10, R73). -/
def markByte (v : Byte) : Byte := v ||| Config.mark

/-- `x & 0x7F`: the value of a tag (R10, R74). -/
def clearMark (x : Byte) : Byte := x &&& Config.fieldMask

/-- The byte of a stream instruction whose bit 7 is set and whose bits 6..0 are `v` (R73). -/
def markedByte (v : Field) : Byte := markByte (fieldByte v)

/-- The terminator that carries the remaining length (R76), used for lengths up to 127. -/
def lengthByte (n : Nat) : Byte := BitVec.ofNat 8 n

end Sys2Proof.Machine
end

