-- ==== Sys2Proof/Syntax.lean ====
section
/-! DEFINITION. The instructions of spec/opcode_table.json, one constructor a row: five commands, presented by
the host with their operands, and four classes of stream byte (00_scope.md R15). -/

namespace Sys2Proof

/-- The five operations of R2, the names behind the command codes of R88. -/
inductive Operation where
  | scan
  | vlenc
  | vldec
  | encode
  | decode
  deriving DecidableEq, Repr

/-- The phase register's values (10_state.md R28). -/
inductive Phase where
  /-- At a record boundary. -/
  | head
  /-- Counting equal bytes after `IN[RP]`. -/
  | count
  /-- Emitting or reading length bytes. -/
  | len
  /-- Writing the copies of an expanded run. -/
  | exp
  deriving DecidableEq, Repr

/-- One constructor per row of the opcode table. A command carries the operands R88 gives it; a stream byte
carries its bits 6..0. -/
inductive Instr where
  /-- `SCAN buf, start` (R101). -/
  | scan (buf : Buffer) (start : Nat)
  /-- `VLENC L` (R112). -/
  | vlenc (len : Nat)
  /-- `VLDEC buf, pos` (R117). -/
  | vldec (buf : Buffer) (pos : Nat)
  /-- `ENCODE buf` (R135). -/
  | encode (buf : Buffer)
  /-- `DECODE buf` (R151). -/
  | decode (buf : Buffer)
  /-- `LIT`: bit 7 clear, read in phase `HEAD`; `v` is its value (R158). -/
  | lit (v : Field)
  /-- `RUNTAG`: bit 7 set, read in phase `HEAD`; `v` is the value of the run (R159). -/
  | runtag (v : Field)
  /-- `CONT`: bit 7 set, read in phase `LEN`; `x` is ignored (R160). -/
  | cont (x : Field)
  /-- `TERM`: bit 7 clear, read in phase `LEN`; `t` is added to the length (R161). -/
  | term (t : Field)
  deriving DecidableEq, Repr

/-- What the host presents beside the command code (10_state.md R38): a buffer by value and one number, which is
`start`, `pos` or `L` by the command (log 20). A command ignores an operand it does not have. -/
structure Operands where
  buf : Buffer
  num : Nat
  deriving DecidableEq, Repr

/-- An instruction in encoded form: a command code with its operands, or a stream byte with the phase it is read
in, which is the one mode bit that changes decoding (30_encoding.md R79). -/
inductive Encoded where
  | command (opsel : BitVec 3) (operands : Operands)
  | streamByte (ph : Phase) (b : Byte)
  deriving DecidableEq, Repr

end Sys2Proof
end

