-- ==== Sys2Proof/Decode.lean ====
section
/-! DEFINITION. Decoding and encoding: the command codes of 30_encoding.md R88 and the classification of stream
bytes of R79. The decoder is total and rejects by name. -/

namespace Sys2Proof

/-- The command code of an operation (R88). -/
def Operation.code : Operation → BitVec 3
  | .scan => 1
  | .vlenc => 2
  | .vldec => 3
  | .encode => 4
  | .decode => 5

/-- The operation a command code selects; 0, 6 and 7 are unassigned (R88, R89). -/
def Operation.ofCode (c : BitVec 3) : Option Operation :=
  match c.toNat with
  | 1 => some .scan
  | 2 => some .vlenc
  | 3 => some .vldec
  | 4 => some .encode
  | 5 => some .decode
  | _ => none

/-- Why an encoded word is no instruction. -/
inductive DecodeError where
  /-- A command code that is not assigned (R89); the launch then fails with `BadOp` (R195). -/
  | unassignedCode (opsel : BitVec 3)
  /-- No byte is read in phases `COUNT` and `EXP` (R79). -/
  | noByteInPhase (ph : Phase)
  deriving DecidableEq, Repr

/-- The command a code selects, with its operands (R88). -/
def decodeCommand (opsel : BitVec 3) (o : Operands) : Except DecodeError Instr :=
  match Operation.ofCode opsel with
  | some .scan => .ok (.scan o.buf o.num)
  | some .vlenc => .ok (.vlenc o.num)
  | some .vldec => .ok (.vldec o.buf o.num)
  | some .encode => .ok (.encode o.buf)
  | some .decode => .ok (.decode o.buf)
  | none => .error (.unassignedCode opsel)

/-- The class of a stream byte, from its bit 7 and the phase it is read in (R79). -/
def decodeByte (ph : Phase) (b : Byte) : Except DecodeError Instr :=
  match ph with
  | .head => .ok (if Machine.highBit b then .runtag (Machine.lowField b) else .lit (Machine.lowField b))
  | .len => .ok (if Machine.highBit b then .cont (Machine.lowField b) else .term (Machine.lowField b))
  | .count => .error (.noByteInPhase .count)
  | .exp => .error (.noByteInPhase .exp)

/-- The decoder on any encoded word. -/
def decodeInstr : Encoded → Except DecodeError Instr
  | .command opsel o => decodeCommand opsel o
  | .streamByte ph b => decodeByte ph b

/-- The encoder, from the tables of R88, R72 and R73. An operand a command does not have is left empty or zero. -/
def encodeInstr : Instr → Encoded
  | .scan buf start => .command Operation.scan.code ⟨buf, start⟩
  | .vlenc len => .command Operation.vlenc.code ⟨[], len⟩
  | .vldec buf pos => .command Operation.vldec.code ⟨buf, pos⟩
  | .encode buf => .command Operation.encode.code ⟨buf, 0⟩
  | .decode buf => .command Operation.decode.code ⟨buf, 0⟩
  | .lit v => .streamByte .head (Machine.fieldByte v)
  | .runtag v => .streamByte .head (Machine.markedByte v)
  | .cont x => .streamByte .len (Machine.markedByte x)
  | .term t => .streamByte .len (Machine.fieldByte t)

/-- The phase the next stream byte is read in: `LEN` from after a tag until after the terminator, `HEAD` otherwise
(R79). A command leaves it at `HEAD`, the start of a stream. -/
def phaseAfter : Instr → Phase
  | .runtag _ => .len
  | .cont _ => .len
  | _ => .head

/-- A whole stream read byte by byte from phase `ph`, each byte classified by R79; it stops at a phase in which no
byte is read. -/
def decodeStream : Phase → Buffer → List Instr
  | _, [] => []
  | ph, b :: bs =>
    match decodeByte ph b with
    | .ok i => i :: decodeStream (phaseAfter i) bs
    | .error _ => []

/-- The byte of a stream instruction; a command is no byte of a stream. -/
def streamByteOf (i : Instr) : Option Byte :=
  match encodeInstr i with
  | .streamByte _ b => some b
  | .command _ _ => none

/-- Is a word of `nbits` bits of the opcode table a command code? The table's command rows are 3 bits wide; given
8 bits the assigned codes 1..5 are read as commands, anything else as a stream byte (log 9). -/
def tableWordIsCommand (nbits w : Nat) : Bool :=
  if nbits < 8 then decide (w < 8) else nbits == 8 && decide (1 ≤ w) && decide (w ≤ 5)

/-- The instruction the decoder reads from a word of the opcode table. The table gives the operands of a command
no bits, so they are the empty buffer and 0. A stream byte is read in phase `HEAD`, the phase at the start of a
stream (R79): rows `TERM` and `CONT` have the same bits as `LIT` and `RUNTAG` and differ in the phase alone (log 9). -/
def decodeTableWord (nbits w : Nat) : Option Instr :=
  if tableWordIsCommand nbits w then (decodeCommand (BitVec.ofNat 3 w) ⟨[], 0⟩).toOption
  else if nbits == 8 && decide (w < 256) then (decodeByte .head (BitVec.ofNat 8 w)).toOption
  else none

end Sys2Proof
end

