-- ==== Sys2Proof/Machine/State.lean ====
section
/-! DEFINITION. The state of RLE-CORE, exactly the registers and buffers of 10_state.md R20, and three fields of
the model's own: the parameter `CAP`, the host's coming moves and what the host has read (log 2, log 3). -/

namespace Sys2Proof.Machine

/-- `ST` (R29). The codes of the four names are `Status.code`. -/
inductive Status where
  | idle
  | busy
  | done
  | err
  deriving DecidableEq, Repr

/-- `ERRC` (60_exceptions.md R191). The codes are `ErrCode.code`. -/
inductive ErrCode where
  /-- 0: `ST ≠ ERR`. -/
  | noError
  /-- 1: a length byte is needed and the input has ended (R193). -/
  | malformedStream
  /-- 2: reserved so that the name has a code; never raised (R192). -/
  | invalidInput
  /-- 3: `SCAN` launched with `start >= |buf|` (R194). -/
  | scanRange
  /-- 4: `VLENC` launched with `L = 0` (R194). -/
  | lenRange
  /-- 5: a launch with an unassigned command code (R195). -/
  | badOp
  /-- 6: a count or a buffer would pass a finite `CAP` (R196). -/
  | capacityExceeded
  deriving DecidableEq, Repr

/-- The registers that can hold `⊥`, by name. -/
inductive Reg where
  | ph
  | rp
  | acc
  | val
  | rlen
  | rnext
  | inp
  | out
  deriving DecidableEq, Repr

/-- A move of the host, every row of the table of R40, and `pause`: the host lets the block take its step. -/
inductive HostMove where
  | pause
  | reset
  | launch (opsel : BitVec 3) (operands : Operands)
  | readStatus
  | readResult
  deriving DecidableEq, Repr

/-- What reading the result gives, by the operation that wrote it (R40). -/
inductive OpResult where
  /-- `SCAN`: `RLEN`. -/
  | runLength (rlen : Nat)
  /-- `VLDEC`: `RLEN` and `RNEXT`. -/
  | lengthAndNext (rlen rnext : Nat)
  /-- `VLENC`, `ENCODE`, `DECODE`: `OUT`. -/
  | output (out : Buffer)
  deriving DecidableEq, Repr

/-- What the host gets for a read (R40). -/
inductive Reply where
  | status (st : Status) (errc : ErrCode) (op : BitVec 3)
  | result (r : OpResult)
  /-- The read of a result is refused: there is none (R40, U14). -/
  | refused
  deriving DecidableEq, Repr

/-- The state. `none` in a register or a buffer is the spec's own value `⊥`, "no value" (10_state.md, opening). -/
structure State where
  /-- `OP`, the command code of the current or last launch, an unassigned one included (R31). -/
  op : BitVec 3
  /-- `ST` (R29). -/
  st : Status
  /-- `ERRC` (R30). -/
  errc : ErrCode
  /-- `PH` (R28). -/
  ph : Option Phase
  /-- `RP`, the read position, the program counter (R24). -/
  rp : Option Nat
  /-- `ACC` (R22). -/
  acc : Option Nat
  /-- `VAL` (R22). -/
  val : Option Byte
  /-- `RLEN` (R32). -/
  rlen : Option Nat
  /-- `RNEXT` (R32). -/
  rnext : Option Nat
  /-- `IN`, the latched input buffer (R34). -/
  inp : Option Buffer
  /-- `OUT`, the staged output buffer (R35). -/
  out : Option Buffer
  /-- The parameter `CAP` of R6; `none` is `∞`. No step writes it (log 2). -/
  cap : Option Nat
  /-- The model's own: the host's coming moves, the next one first; when empty the host stays silent (log 3). -/
  host : List HostMove
  /-- The model's own: what the host's reads have given, oldest first (log 3). -/
  replies : List Reply
  deriving DecidableEq, Repr

/-- Why a step has no outcome in the spec. R37 and R55 say that neither case is ever reached. -/
inductive Fault where
  /-- Raised by every step rule that reads a register holding `⊥`: "a read of a register that holds `⊥` is a fault
  of the model" (10_state.md, opening). Safe: the model stops. -/
  | noValue (r : Reg)
  /-- Raised by the scanner's and the encoder's first read when `a >= |IN|`, where `MemRead` is not defined
  (20_memory.md R55). Safe: the model stops. -/
  | readOutside (a : Nat)
  deriving DecidableEq, Repr

/-- Why the model gives an instruction or a step no meaning. -/
inductive Refusal where
  /-- Raised by `exec` for an instruction without a meaning; no arm does. Safe. -/
  | notModelled (mnemonic : String)
  /-- Raised by the meaning of a stream byte in a state in which the block reads no byte of that class: the rules
  R158 to R161 speak of a byte read in a given phase. `step` never asks for it. Safe. -/
  | byteNotRead (mnemonic : String)
  /-- Raised by the block in an `(OP, PH)` pair for which 10_state.md R36 has no step rule; the rule says that none
  is reachable. Safe. -/
  | noStepRule (op : BitVec 3) (ph : Phase)
  deriving DecidableEq, Repr

/-- The machine right after reset, with the default `CAP` and a silent host (R42, R6). -/
def State.reset : State where
  op := 0
  st := .idle
  errc := .noError
  ph := none
  rp := none
  acc := none
  val := none
  rlen := none
  rnext := none
  inp := none
  out := none
  cap := Config.defaultCap
  host := []
  replies := []

end Sys2Proof.Machine
end

