-- ==== Sys2Proof/Machine/Ops.lean ====
section
/-! DEFINITION. The named operations every meaning is written over: the numeric codes, reading a register,
`MemRead`, append, adding to `ACC`, `raise`, `done`, and the launch (00_scope.md R11, 10_state.md R38,
20_memory.md R55, R56, 60_exceptions.md R196 to R198). -/

namespace Sys2Proof.Machine

/-- The outcome of a step of this machine. -/
abbrev StepOutcome := Host.Outcome State Fault Refusal

/-- The 2-bit code of `ST` (R29). -/
def Status.code : Status → BitVec 2
  | .idle => 0
  | .busy => 1
  | .done => 2
  | .err => 3

/-- The 3-bit code of `ERRC` (R191). -/
def ErrCode.code : ErrCode → BitVec 3
  | .noError => 0
  | .malformedStream => 1
  | .invalidInput => 2
  | .scanRange => 3
  | .lenRange => 4
  | .badOp => 5
  | .capacityExceeded => 6

/-- The 2-bit code of `PH` (R28). -/
def phaseCode : Phase → BitVec 2
  | .head => 0
  | .count => 1
  | .len => 2
  | .exp => 3

/-- Read a register that must hold a value; `⊥` is a fault of the model (10_state.md, opening). -/
def need {α : Type} (r : Reg) (x : Option α) (k : α → StepOutcome) : StepOutcome :=
  match x with
  | some a => k a
  | none => .fault (.noValue r)

/-- `MemRead(IN, a, 1)`: the byte at index `a`, no value when `a >= |IN|` (R55). -/
def memRead (b : Buffer) (a : Nat) : Option Byte := b[a]?

/-- A buffer as (address, byte) pairs (R50). -/
def bufferCells (b : Buffer) : List Host.Cell := (List.range b.length).zip b

/-- The canonical form of a buffer's cells: addresses 0, 1, 2, … in order, without a hole (R9, R50). -/
def Memory.wf (cells : List Host.Cell) : Bool := cells.map Prod.fst == List.range cells.length

/-- Error entry: `ST` and `ERRC` are written, `OP` is kept, everything else is `⊥` (R197). -/
def raise (e : ErrCode) (s : State) : State :=
  { s with
    st := .err, errc := e, ph := none, rp := none, acc := none, val := none,
    rlen := none, rnext := none, inp := none, out := none }

/-- `done`: the operation ends and the staged output becomes the result (R11). -/
def finish (s : State) : State := { s with st := .done }

/-- `OUT <- OUT ++ [v]`, then go on. If the append would pass `CAP` the step raises `CapacityExceeded` instead and
makes no other change (R56, R196 (b)). -/
def append (v : Byte) (s : State) (k : State → StepOutcome) : StepOutcome :=
  need .out s.out fun o =>
    if exceeds s.cap (o.length + 1) then .next (raise .capacityExceeded s)
    else k { s with out := some (o ++ [v]) }

/-- `ACC <- ACC + n`, then go on. If the sum would pass `CAP` the step raises `CapacityExceeded` instead and makes
no other change (R196 (c)). -/
def addAcc (n : Nat) (s : State) (k : State → StepOutcome) : StepOutcome :=
  need .acc s.acc fun a =>
    if exceeds s.cap (a + n) then .next (raise .capacityExceeded s)
    else k { s with acc := some (a + n) }

/-- `RP <- RP + 1`, then go on (R25). -/
def advance (s : State) (k : State → StepOutcome) : StepOutcome :=
  need .rp s.rp fun p => k { s with rp := some (p + 1) }

/-- A launch that fails: `OP` takes the code presented, then the error is entered (R38, R197). -/
def failLaunch (opsel : BitVec 3) (e : ErrCode) (s : State) : State := raise e { s with op := opsel }

/-- A launch that succeeds: the registers as the last lines of R38 set them. -/
def startOperation (o : Operation) (ph : Phase) (inp : Buffer) (rp acc : Nat) (s : State) : State :=
  { s with
    op := o.code, st := .busy, errc := .noError, ph := some ph, rp := some rp, acc := some acc, val := none,
    rlen := none, rnext := none, inp := some inp, out := some [] }

/-- The launch of an assigned command, in the order of tests of R38 and R198. `sizes` are the operands tested
against `CAP`, `bad` the command's own precondition failure. While `ST = BUSY` a launch changes nothing and the
operation in flight goes on (R39, log 5). -/
def launch (o : Operation) (sizes : List Nat) (bad : Option ErrCode) (ph : Phase) (inp : Buffer) (rp acc : Nat)
    (s : State) : StepOutcome :=
  if s.st = .busy then .next s
  else if sizes.any (exceeds s.cap) then .next (failLaunch o.code .capacityExceeded s)
  else
    match bad with
    | some e => .next (failLaunch o.code e s)
    | none => .next (startOperation o ph inp rp acc s)

/-- The launch of an unassigned code fails with `BadOp` (R38, R195); while `ST = BUSY` it changes nothing (R39). -/
def launchUnassigned (opsel : BitVec 3) (s : State) : State :=
  if s.st = .busy then s else failLaunch opsel .badOp s

/-- The host's reset: the state of R42. The parameter `CAP` and what belongs to the host stay (log 21). -/
def hostReset (s : State) : State :=
  { State.reset with cap := s.cap, host := s.host, replies := s.replies }

/-- What the host gets by reading the status, allowed at any time (R40). -/
def readStatus (s : State) : Reply := .status s.st s.errc s.op

/-- What the host gets by reading the result: by `OP` when `ST = DONE`, otherwise the read is refused (R40). -/
def readResult (s : State) : Reply :=
  match s.st, Operation.ofCode s.op, s.rlen, s.rnext, s.out with
  | .done, some .scan, some n, _, _ => .result (.runLength n)
  | .done, some .vldec, some n, some p, _ => .result (.lengthAndNext n p)
  | .done, some .vlenc, _, _, some b => .result (.output b)
  | .done, some .encode, _, _, some b => .result (.output b)
  | .done, some .decode, _, _, some b => .result (.output b)
  | _, _, _, _, _ => .refused

/-- The host takes down a reply; a read touches nothing else (R40). -/
def record (r : Reply) (s : State) : State := { s with replies := s.replies ++ [r] }

/-- The first byte of a run, `RP < |IN|` having been tested: the scanner's `HEAD` step (40_scanner.md R102), which
is also the encoder's (42_encoder.md R137). -/
def startRun (s : State) : StepOutcome :=
  need .inp s.inp fun b => need .rp s.rp fun p =>
    match memRead b p with
    | some v => .next { s with val := some v, acc := some 1, ph := some .count }
    | none => .fault (.readOutside p)

/-- The look-ahead at `RP + ACC`: an equal byte adds 1 to `ACC`; a different byte or the end of the input ends the
run with its position, length and value: the scanner's `COUNT` step (R103), the first branch of R138. -/
def countRun (s : State) (ended : Nat → Nat → Byte → StepOutcome) : StepOutcome :=
  need .inp s.inp fun b => need .rp s.rp fun p => need .acc s.acc fun n => need .val s.val fun v =>
    if memRead b (p + n) = some v then addAcc 1 s .next else ended p n v

/-- One length byte of the length encoder (41_varint_length.md R114): a continuation byte while more than 127
remains, otherwise the terminator, after which the caller goes on. -/
def emitLength (s : State) (last : State → StepOutcome) : StepOutcome :=
  need .acc s.acc fun n =>
    if overChunk n then append Config.contByte s fun t => .next { t with acc := some (n - Config.chunk) }
    else append (lengthByte n) s last

end Sys2Proof.Machine
end

