-- ==== Sys2Proof/Machine/Decoder.lean ====
section
/-! DEFINITION. The run-length decoder, operation `DECODE` (spec/43_decoder.md), but for the four classes of
stream byte, which are instructions of their own (Machine/StreamBytes.lean). -/

namespace Sys2Proof.Machine

/-- `DECODE buf`: its launch (R151, R38); every byte string is accepted. -/
def execDecode (buf : Buffer) (s : State) : StepOutcome :=
  launch .decode [buf.length] none .head buf 0 0 s

/-- Step of `DECODE` in phase `HEAD` at the end of the input (R155). -/
def decodeHeadEnd (s : State) : StepOutcome := .next (finish s)

/-- Step of `DECODE` in phase `LEN` at the end of the input (R156, R162). -/
def decodeLenEnd (s : State) : StepOutcome := .next (raise .malformedStream s)

/-- Step of `DECODE` in phase `EXP`, one copy a step (R157). -/
def decodeExp (s : State) : StepOutcome :=
  need .acc s.acc fun n =>
    if n = 0 then .next { s with ph := some .head }
    else need .val s.val fun v => append v s fun t => .next { t with acc := some (n - 1) }

end Sys2Proof.Machine
end

