-- ==== Sys2Proof/Machine/Encoder.lean ====
section
/-! DEFINITION. The run-length encoder, operation `ENCODE` (spec/42_encoder.md). -/

namespace Sys2Proof.Machine

/-- `ENCODE buf`: its launch (R135, R38); every buffer is accepted (R131). -/
def execEncode (buf : Buffer) (s : State) : StepOutcome :=
  launch .encode [buf.length] none .head buf 0 0 s

/-- Step of `ENCODE` in phase `HEAD` (R137). -/
def encodeHead (s : State) : StepOutcome :=
  need .inp s.inp fun b => need .rp s.rp fun p =>
    if b.length ≤ p then .next (finish s) else startRun s

/-- Step of `ENCODE` in phase `COUNT` (R138): at the end of a run `RP` is advanced and the head byte written. -/
def encodeCount (s : State) : StepOutcome :=
  countRun s fun p n v =>
    if literalRun n v then
      append v { s with rp := some (p + n) } fun t => .next { t with ph := some .head }
    else
      append (markByte v) { s with rp := some (p + n) } fun t => .next { t with ph := some .len }

/-- Step of `ENCODE` in phase `LEN` (R139). -/
def encodeLen (s : State) : StepOutcome := emitLength s fun t => .next { t with ph := some .head }

end Sys2Proof.Machine
end

