-- ==== Sys2Proof/Machine/Scanner.lean ====
section
/-! DEFINITION. The run-length scanner, operation `SCAN` (spec/40_scanner.md). -/

namespace Sys2Proof.Machine

/-- `SCAN buf, start`: its launch (R101, R38); `start >= |buf|` is `ScanRange` (R104). -/
def execScan (buf : Buffer) (start : Nat) (s : State) : StepOutcome :=
  launch .scan [buf.length, start] (if buf.length ≤ start then some .scanRange else none) .head buf start 0 s

/-- Step of `SCAN` in phase `HEAD` (R102). -/
def scanHead (s : State) : StepOutcome := startRun s

/-- Step of `SCAN` in phase `COUNT` (R103). -/
def scanCount (s : State) : StepOutcome :=
  countRun s fun _ n _ => .next (finish { s with rlen := some n })

end Sys2Proof.Machine
end

