-- ==== Sys2Proof/Machine/StreamBytes.lean ====
section
/-! DEFINITION. The four classes of stream byte (spec/43_decoder.md R158 to R161). `DECODE` reads all four, and
`VLDEC` reads the two length bytes (41_varint_length.md R119, log 10). -/

namespace Sys2Proof.Machine

/-- Is the block reading bytes for one of these operations, in this phase? (R79, R36) -/
def readsByte (ops : List Operation) (ph : Phase) (s : State) : Bool :=
  s.st == .busy && ops.any (fun o => o.code == s.op) && s.ph == some ph

/-- A stream byte acts only where the block reads a byte of its class; elsewhere it is refused by name (log 11). -/
def whileReading (mnemonic : String) (ops : List Operation) (ph : Phase) (s : State) (k : StepOutcome) :
    StepOutcome :=
  if readsByte ops ph s then k else .refused (.byteNotRead mnemonic)

/-- `LIT` (R158): append the byte, `RP + 1`; the phase stays `HEAD`. -/
def execLit (v : Field) (s : State) : StepOutcome :=
  whileReading "LIT" [.decode] .head s <| advance s fun t => append (fieldByte v) t .next

/-- `RUNTAG` (R159): `VAL <- v; ACC <- 0; RP + 1; PH <- LEN`; nothing is appended yet. -/
def execRuntag (v : Field) (s : State) : StepOutcome :=
  whileReading "RUNTAG" [.decode] .head s <| advance s fun t =>
    .next { t with val := some (fieldByte v), acc := some 0, ph := some .len }

/-- `CONT` (R160): `ACC + 127; RP + 1`; the phase stays `LEN`, and bits 6..0 are ignored (R77). -/
def execCont (_x : Field) (s : State) : StepOutcome :=
  whileReading "CONT" [.vldec, .decode] .len s <| advance s fun t => addAcc Config.chunk t .next

/-- `TERM` (R161): `ACC + t; RP + 1`; then `DECODE` goes to phase `EXP`, and `VLDEC` has its results and is done
(R119). -/
def execTerm (t : Field) (s : State) : StepOutcome :=
  whileReading "TERM" [.vldec, .decode] .len s <| advance s fun u => addAcc t.toNat u fun w =>
    if w.op = Operation.vldec.code then .next (finish { w with rlen := w.acc, rnext := w.rp })
    else .next { w with ph := some .exp }

end Sys2Proof.Machine
end

