-- ==== Sys2Proof/Machine/Varint.lean ====
section
/-! DEFINITION. The varint length encoder and decoder, operations `VLENC` and `VLDEC`
(spec/41_varint_length.md). The length bytes `VLDEC` reads are the stream bytes of Machine/StreamBytes.lean. -/

namespace Sys2Proof.Machine

/-- `VLENC L`: its launch (R112, R38); `L = 0` is `LenRange` (R115). -/
def execVlenc (len : Nat) (s : State) : StepOutcome :=
  launch .vlenc [len] (if len = 0 then some .lenRange else none) .len [] 0 len s

/-- Step of `VLENC` in phase `LEN` (R114). -/
def vlencLen (s : State) : StepOutcome := emitLength s fun t => .next (finish t)

/-- `VLDEC buf, pos`: its launch (R117, R38); every `pos` is accepted. -/
def execVldec (buf : Buffer) (pos : Nat) (s : State) : StepOutcome :=
  launch .vldec [buf.length, pos] none .len buf pos 0 s

/-- Step of `VLDEC` when the input has ended before a terminator (R119). -/
def vldecEnd (s : State) : StepOutcome := .next (raise .malformedStream s)

end Sys2Proof.Machine
end

