-- ==== Sys2Proof/Machine/Dispatch.lean ====
section
/-! DEFINITION. The dispatch: one arm per constructor of Instr. -/

namespace Sys2Proof.Machine

def exec (i : Instr) (s : State) : Host.Outcome State Fault Refusal :=
  match i with
  | .scan buf start => Sys2Proof.Machine.execScan buf start s
  | .vlenc len => Sys2Proof.Machine.execVlenc len s
  | .vldec buf pos => Sys2Proof.Machine.execVldec buf pos s
  | .encode buf => Sys2Proof.Machine.execEncode buf s
  | .decode buf => Sys2Proof.Machine.execDecode buf s
  | .lit v => Sys2Proof.Machine.execLit v s
  | .runtag v => Sys2Proof.Machine.execRuntag v s
  | .cont x => Sys2Proof.Machine.execCont x s
  | .term t => Sys2Proof.Machine.execTerm t s

end Sys2Proof.Machine
end

