-- ==== Sys2Proof/Machine/Fetch.lean ====
section
/-! DEFINITION. What the next step is: the host's move, the one enabled step rule of 10_state.md R36, or the
instruction to run, which is a command the host launches or the stream byte at `RP`. -/

namespace Sys2Proof.Machine

/-- What a step does: run an instruction on a state, or an outcome that is no instruction's. -/
inductive Action where
  | run (i : Instr) (s : State)
  | move (o : StepOutcome)

/-- Read the stream byte at `RP` in phase `ph`; the end-of-input test comes before the read (R198). -/
def fetchByte (ph : Phase) (s : State) (atEnd : StepOutcome) : Action :=
  match s.inp, s.rp with
  | none, _ => .move (.fault (.noValue .inp))
  | _, none => .move (.fault (.noValue .rp))
  | some b, some p =>
    match memRead b p with
    | none => .move atEnd
    | some x =>
      match decodeByte ph x with
      | .ok i => .run i s
      | .error _ => .move (.refused (.noStepRule s.op ph))

/-- The step rule R36 enables in phase `ph` of the operation in flight. -/
def stepRule (o : Operation) (ph : Phase) (s : State) : Action :=
  match o, ph with
  | .scan, .head => .move (scanHead s)
  | .scan, .count => .move (scanCount s)
  | .vlenc, .len => .move (vlencLen s)
  | .vldec, .len => fetchByte .len s (vldecEnd s)
  | .encode, .head => .move (encodeHead s)
  | .encode, .count => .move (encodeCount s)
  | .encode, .len => .move (encodeLen s)
  | .decode, .head => fetchByte .head s (decodeHeadEnd s)
  | .decode, .len => fetchByte .len s (decodeLenEnd s)
  | .decode, .exp => .move (decodeExp s)
  | _, _ => .move (.refused (.noStepRule s.op ph))

/-- The block's own step. When `ST ≠ BUSY` the block has none and waits, the state unchanged (R36, R43, log 6). -/
def blockAction (s : State) : Action :=
  if s.st = .busy then
    match s.ph with
    | none => .move (.fault (.noValue .ph))
    | some ph =>
      match Operation.ofCode s.op with
      | some o => stepRule o ph s
      | none => .move (.refused (.noStepRule s.op ph))
  else .move (.next s)

/-- The host's next move if it makes one (R40), otherwise the block's step. A launch is decoded by its code (R88). -/
def nextAction (s : State) : Action :=
  match s.host with
  | [] => blockAction s
  | .pause :: rest => blockAction { s with host := rest }
  | .reset :: rest => .move (.next (hostReset { s with host := rest }))
  | .launch opsel o :: rest =>
    match decodeCommand opsel o with
    | .ok i => .run i { s with host := rest }
    | .error _ => .move (.next (launchUnassigned opsel { s with host := rest }))
  | .readStatus :: rest => .move (.next (record (readStatus s) { s with host := rest }))
  | .readResult :: rest => .move (.next (record (readResult s) { s with host := rest }))

/-- The host is about to launch a code with the operands the opcode table has no bits for: empty and 0. -/
def placeCommand (w : Nat) (s : State) : State :=
  { s with host := .launch (BitVec.ofNat 3 w) ⟨[], 0⟩ :: s.host }

/-- `DECODE` has been launched on the one-byte stream, and the host stays silent (log 4). -/
def placeStream (w : Nat) (s : State) : State :=
  { startOperation .decode .head [BitVec.ofNat 8 w] 0 0 s with host := [] }

/-- Place a word of the opcode table so that the very next step runs it. -/
def placeWord (nbits w : Nat) (s : State) : State :=
  if tableWordIsCommand nbits w then placeCommand w s
  else if nbits == 8 && decide (w < 256) then placeStream w s
  else s

end Sys2Proof.Machine
end

