-- ==== Sys2Proof/Machine/Step.lean ====
section
/-! DEFINITION. One step of the machine. -/

namespace Sys2Proof.Machine

/-- One step: the instruction that is due, or the host's move or step rule that is no instruction (R36, R40). -/
def step (s : State) : Host.Outcome State Fault Refusal :=
  match nextAction s with
  | .run i t => exec i t
  | .move o => o

/-- `s` with a word of the opcode table placed where the next step takes its instruction from (log 4). -/
def State.withFetchWord (s : State) (nbits w : Nat) : State := placeWord nbits w s

end Sys2Proof.Machine
end

