-- ==== Sys2Proof/Machine/Functions.lean ====
section
/-! DEFINITION. The five operations as pure functions on buffers and numbers, the level of 00_scope.md R12 that is
normative for an operation's result, and the counts of steps the spec gives for the step machine. -/

namespace Sys2Proof.Machine

/-- How many bytes at the front of the buffer equal `v`. -/
def runLength (v : Byte) : Buffer → Nat
  | [] => 0
  | b :: bs => if b = v then runLength v bs + 1 else 0

/-- `scan(buf, start)` (40_scanner.md R101); no value where the precondition `start < |buf|` fails. -/
def scanFn (buf : Buffer) (start : Nat) : Option Nat :=
  match buf.drop start with
  | [] => none
  | v :: rest => some (runLength v rest + 1)

/-- `vlenc`, the loop of R112, with `fuel` a bound on the number of continuation bytes. -/
def vlencLoop : Nat → Nat → Buffer
  | 0, n => [lengthByte n]
  | fuel + 1, n => if overChunk n then Config.contByte :: vlencLoop fuel (n - Config.chunk) else [lengthByte n]

/-- `vlenc(L)` (41_varint_length.md R112), for `L >= 1`. -/
def vlencFn (n : Nat) : Buffer := vlencLoop n n

/-- `go(p, acc)` of R117 on the bytes from index `p` on; no value is `MalformedStream`. -/
def vldecLoop : Buffer → Nat → Nat → Option (Nat × Nat)
  | [], _, _ => none
  | x :: xs, p, acc =>
    if highBit x then vldecLoop xs (p + 1) (acc + Config.chunk)
    else some (acc + (lowField x).toNat, p + 1)

/-- `vldec(buf, pos)` (R117): the length and the index after the terminator, or no value for `MalformedStream`. -/
def vldecFn (buf : Buffer) (pos : Nat) : Option (Nat × Nat) := vldecLoop (buf.drop pos) pos 0

/-- The record the encoder writes for a maximal run of `n` bytes `v` (30_encoding.md R86, 42_encoder.md R135). -/
def runRecord (v : Byte) (n : Nat) : Buffer :=
  if literalRun n v then [v] else markByte v :: vlencFn n

/-- `enc` of R135 on the bytes from a run's start on, with `fuel` a bound on the number of runs. -/
def encodeLoop : Nat → Buffer → Buffer
  | 0, _ => []
  | _ + 1, [] => []
  | fuel + 1, v :: rest =>
    runRecord v (runLength v rest + 1) ++ encodeLoop fuel (rest.drop (runLength v rest))

/-- `encode(buf)` (R135). -/
def encodeFn (buf : Buffer) : Buffer := encodeLoop buf.length buf

/-- `dec` of R151 on the bytes from a record's start on, with `fuel` a bound on the number of records; no value is
`MalformedStream`, which makes the whole result no value. -/
def decodeLoop : Nat → Buffer → Option Buffer
  | 0, _ => some []
  | _ + 1, [] => some []
  | fuel + 1, x :: xs =>
    if highBit x then
      match vldecFn xs 0 with
      | none => none
      | some (n, next) => (decodeLoop fuel (xs.drop next)).map fun b => List.replicate n (clearMark x) ++ b
    else (decodeLoop fuel xs).map fun b => x :: b

/-- `decode(buf)` (43_decoder.md R151): a buffer, or no value for `MalformedStream`. -/
def decodeFn (buf : Buffer) : Option Buffer := decodeLoop buf.length buf

/-- `strip7(b)`: bit 7 of every byte cleared (spec/44_properties.md). -/
def strip7 (b : Buffer) : Buffer := b.map clearMark

/-- A seven-bit buffer: every byte at most 0x7F (spec/44_properties.md). -/
def sevenBit (b : Buffer) : Bool := b.all fun x => !highBit x

/-- `ceil(n / 127)`: how many length bytes a run length takes (R113). -/
def lengthBytes (n : Nat) : Nat := (n - 1) / Config.chunk + 1

/-- The steps of `SCAN` after its launch (40_scanner.md R106). -/
def scanSteps (n : Nat) : Nat := 1 + n

/-- The steps of `ENCODE` for one run: `1 + n + e` (42_encoder.md R145). -/
def runSteps (v : Byte) (n : Nat) : Nat := 1 + n + if literalRun n v then 0 else lengthBytes n

/-- The steps of `ENCODE` after its launch (R145), run by run, the final `HEAD` step included. -/
def encodeStepsLoop : Nat → Buffer → Nat
  | 0, _ => 1
  | _ + 1, [] => 1
  | fuel + 1, v :: rest =>
    runSteps v (runLength v rest + 1) + encodeStepsLoop fuel (rest.drop (runLength v rest))

/-- The steps of `ENCODE buf` after its launch (R145). -/
def encodeSteps (buf : Buffer) : Nat := encodeStepsLoop buf.length buf

end Sys2Proof.Machine
end

