-- ==== Sys2Proof/Machine/Records.lean ====
section
/-! DEFINITION. The records of the wire format and the streams they make (30_encoding.md R70 to R85). -/

namespace Sys2Proof.Machine

/-- A record of the grammar of R71. A run record holds the value of its tag, the low seven bits of each
continuation byte and the terminator field. -/
inductive Record where
  | literal (v : Field)
  | run (v : Field) (conts : List Field) (t : Field)
  deriving DecidableEq, Repr

/-- The bytes of a record (R72, R73). -/
def recordBytes : Record → Buffer
  | .literal v => [fieldByte v]
  | .run v conts t => markedByte v :: (conts.map markedByte ++ [fieldByte t])

/-- The stream instructions of a record (R79). -/
def recordInstrs : Record → List Instr
  | .literal v => [.lit v]
  | .run v conts t => .runtag v :: (conts.map Instr.cont ++ [.term t])

/-- The value of a record (R74). -/
def recordValue : Record → Field
  | .literal v => v
  | .run v _ _ => v

/-- The length of a record: 1 for a literal, `127 * k + t` for a run record with `k` continuation bytes (R75). -/
def recordLength : Record → Nat
  | .literal _ => 1
  | .run _ conts t => Config.chunk * conts.length + t.toNat

/-- What a record stands for: its value, its length times (R152). -/
def recordOutput (r : Record) : Buffer := List.replicate (recordLength r) (fieldByte (recordValue r))

/-- A stream is its records one after the other (R70). -/
def streamBytes (rs : List Record) : Buffer := rs.flatMap recordBytes

/-- An item of the notation for streams (R90); a field keeps each value within the bounds the rule gives. -/
inductive StreamItem where
  | lit (v : Field)
  | run (v : Field) (n : Nat)
  | tag (v : Field)
  | cont
  | contOf (x : Field)
  | term (t : Field)
  | byte (x : Byte)
  deriving DecidableEq, Repr

/-- The bytes an item stands for (R90); `RUN v, n` is the only one of more than one byte (R91). -/
def itemBytes : StreamItem → Buffer
  | .lit v => [fieldByte v]
  | .run v n => markedByte v :: vlencFn n
  | .tag v => [markedByte v]
  | .cont => [Config.contByte]
  | .contOf x => [markedByte x]
  | .term t => [fieldByte t]
  | .byte x => [x]

/-- A record is canonical: its continuation bytes are 0xFF and its terminator is in 1..127 (R84). -/
def canonicalRecord : Record → Bool
  | .literal _ => true
  | .run _ conts t => conts.all (fun x => x == 0x7F) && t != 0

/-- Every run record has length at least 2; a literal is no run record (R85). -/
def longEnough : Record → Bool
  | .literal _ => true
  | .run v conts t => decide (2 ≤ recordLength (.run v conts t))

/-- Any two adjacent records have different values (R85). -/
def adjacentDiffer : List Record → Bool
  | [] => true
  | [_] => true
  | r :: q :: rs => recordValue r != recordValue q && adjacentDiffer (q :: rs)

/-- The encoder's image on seven-bit inputs, as R85 describes it. -/
def encoderImage (rs : List Record) : Bool :=
  rs.all canonicalRecord && rs.all longEnough && adjacentDiffer rs

/-- Well-formed stream: empty, or the last byte has the high bit clear (R83). -/
def wellFormedStream (e : Buffer) : Bool :=
  match e.getLast? with
  | none => true
  | some x => !highBit x

/-- The steps of `DECODE` for one record (43_decoder.md R166). -/
def recordSteps : Record → Nat
  | .literal _ => 1
  | .run v conts t => 1 + (conts.length + 1) + (recordLength (.run v conts t) + 1)

/-- The steps of `DECODE` after its launch on a well-formed stream (R166). -/
def decodeSteps (rs : List Record) : Nat := 1 + (rs.map recordSteps).sum

end Sys2Proof.Machine
end

