-- ==== Sys2Proof/Safety.lean ====
section
/-! DEFINITION. What claims about runs use: several steps, the end of an operation, and the invariant that holds
of every state the spec calls reachable. -/

namespace Sys2Proof.Machine

/-- `k` steps, none of them a fault or a refusal. -/
def stepsTo : Nat → State → Option State
  | 0, s => some s
  | k + 1, s =>
    match step s with
    | .next t => stepsTo k t
    | .fault _ => none
    | .refused _ => none

/-- The end of a run of the block: `ST ∈ {DONE, ERR}` (R43). -/
def ended (s : State) : Bool := s.st == .done || s.st == .err

/-- A count is within `CAP`. -/
abbrev within (cap : Option Nat) (n : Nat) : Prop := exceeds cap n = false

/-- Every register and buffer that can hold `⊥` holds it (R42, R197). -/
abbrev noValues (s : State) : Prop :=
  s.ph = none ∧ s.rp = none ∧ s.acc = none ∧ s.val = none ∧
    s.rlen = none ∧ s.rnext = none ∧ s.inp = none ∧ s.out = none

/-- The block's turn: the host is silent, and the operation `o` is in flight in phase `ph` (R36). -/
abbrev blockIn (o : Operation) (ph : Phase) (s : State) : Prop :=
  s.host = [] ∧ s.st = .busy ∧ s.op = Operation.code o ∧ s.ph = some ph

/-- From `s` the error `e` was entered with the command code `c`: no register but `ST`, `ERRC` and `OP` holds a
value, and what is not the block's is as it was (R197). -/
abbrev failedWith (c : BitVec 3) (e : ErrCode) (s t : State) : Prop :=
  t.op = c ∧ t.st = .err ∧ t.errc = e ∧ noValues t ∧ t.cap = s.cap ∧ t.host = s.host ∧ t.replies = s.replies

/-- Is the instruction a command? -/
def isCommand (i : Instr) : Bool := (streamByteOf i).isNone

/-- The block's registers are those of `t`; `CAP` and what belongs to the host are those of `s`. -/
def withBlockOf (t s : State) : State := { t with cap := s.cap, host := s.host, replies := s.replies }

/-- What holds of the working registers of operation `o` in flight in phase `ph`, for the pairs of R36, with the
bounds of R26. `VLDEC` alone can have `RP > |IN|`, from a launch with `pos > |IN|` (log 13). -/
def inFlight (o : Operation) (ph : Phase) (rp acc : Nat) (val : Option Byte) (inp out : Buffer) : Prop :=
  match o, ph with
  | .scan, .head => rp < inp.length ∧ out = []
  | .scan, .count => 1 ≤ acc ∧ rp + acc ≤ inp.length ∧ val.isSome = true ∧ out = []
  | .vlenc, .len => 1 ≤ acc
  | .vldec, .len => out = []
  | .encode, .head => rp ≤ inp.length
  | .encode, .count => 1 ≤ acc ∧ rp + acc ≤ inp.length ∧ val.isSome = true
  | .encode, .len => 1 ≤ acc ∧ acc ≤ inp.length ∧ rp ≤ inp.length ∧ val.isSome = true
  | .decode, .head => rp ≤ inp.length ∧ out.all (fun x => !highBit x) = true
  | .decode, .len =>
    1 ≤ rp ∧ rp ≤ inp.length ∧ val.any (fun x => !highBit x) = true ∧ out.all (fun x => !highBit x) = true
  | .decode, .exp =>
    1 ≤ rp ∧ rp ≤ inp.length ∧ val.any (fun x => !highBit x) = true ∧ out.all (fun x => !highBit x) = true
  | _, _ => False

/-- A busy block: an assigned code, no error, a phase R36 has a step rule for, every register that is read holding
a value within `CAP`, no result yet (R30, R32, R36, R37, R20). -/
def busyOk (s : State) : Prop :=
  s.errc = .noError ∧ s.rlen = none ∧ s.rnext = none ∧
    ∃ o ph rp acc inp out,
      s.op = Operation.code o ∧ s.ph = some ph ∧ s.rp = some rp ∧ s.acc = some acc ∧ s.inp = some inp ∧
      s.out = some out ∧ within s.cap inp.length ∧ within s.cap out.length ∧ within s.cap rp ∧
      within s.cap acc ∧ inFlight o ph rp acc s.val inp out

/-- A completed operation: its result can be read, and the result registers it does not write hold `⊥` (R32, R40). -/
def doneOk (s : State) : Prop :=
  s.errc = .noError ∧
    ((s.op = Operation.scan.code ∧ s.rlen.isSome = true ∧ s.rnext = none) ∨
      (s.op = Operation.vldec.code ∧ s.rlen.isSome = true ∧ s.rnext.isSome = true) ∨
      (s.op ∈ [Operation.vlenc.code, Operation.encode.code, Operation.decode.code] ∧ s.out.isSome = true ∧
        s.rlen = none ∧ s.rnext = none))

/-- Which error can stand beside which command code (R191 to R196). -/
def errorFits (e : ErrCode) (op : BitVec 3) (cap : Option Nat) : Prop :=
  match e with
  | .noError => False
  | .malformedStream => op = Operation.vldec.code ∨ op = Operation.decode.code
  | .invalidInput => False
  | .scanRange => op = Operation.scan.code
  | .lenRange => op = Operation.vlenc.code
  | .badOp => Operation.ofCode op = none
  | .capacityExceeded => cap.isSome = true ∧ (Operation.ofCode op).isSome = true

/-- The invariant of the machine. -/
def MachineInv (s : State) : Prop :=
  match s.st with
  | .idle => s.errc = .noError ∧ s.op = 0 ∧ noValues s
  | .busy => busyOk s
  | .done => doneOk s
  | .err => errorFits s.errc s.op s.cap ∧ noValues s

end Sys2Proof.Machine
end

