-- ==== Sys2Proof/Certificates/Slice0/Obligations.lean ====
section
/-! DEFINITION. The statements for the provers. Each docstring names the rules of spec/ it formalises. -/

open Sys2Proof Sys2Proof.Machine

/-! Encoding. -/

/-- R79, R88: decoding the encoding of an instruction gives it back, with every operand at every value. -/
def Obligations.DecodeOfEncodeIsTheInstruction : Prop :=
  ∀ i : Instr, decodeInstr (encodeInstr i) = .ok i

/-- R79, R82: a stream byte that is read has one meaning, and no bit of it is dropped. -/
def Obligations.EncodeOfDecodeIsTheStreamByte : Prop :=
  ∀ (ph : Phase) (b : Byte) (i : Instr),
    decodeInstr (.streamByte ph b) = .ok i → encodeInstr i = .streamByte ph b

/-- R70, R71, R79: the bytes of any sequence of records, read one by one from phase `HEAD`, are classified as
the stream instructions of those records, and those instructions encode to the same bytes. -/
def Obligations.StreamOfRecordsDecodesToItsInstructions : Prop :=
  ∀ rs : List Record,
    decodeStream .head (streamBytes rs) = rs.flatMap recordInstrs ∧
      (rs.flatMap recordInstrs).filterMap streamByteOf = streamBytes rs

/-- R79: the class of every byte in every phase, and the phase after a byte. -/
def Obligations.StreamBytesClassifiedByBit7AndPhase : Prop :=
  (∀ b : Byte,
    (b.toNat ≤ 0x7F →
      decodeByte .head b = .ok (.lit (BitVec.ofNat 7 b.toNat)) ∧
        decodeByte .len b = .ok (.term (BitVec.ofNat 7 b.toNat))) ∧
    (0x80 ≤ b.toNat →
      decodeByte .head b = .ok (.runtag (BitVec.ofNat 7 (b.toNat - 0x80))) ∧
        decodeByte .len b = .ok (.cont (BitVec.ofNat 7 (b.toNat - 0x80)))) ∧
    decodeByte .count b = .error (.noByteInPhase .count) ∧
    decodeByte .exp b = .error (.noByteInPhase .exp)) ∧
  ∀ v : Field,
    phaseAfter (.lit v) = .head ∧ phaseAfter (.runtag v) = .len ∧
      phaseAfter (.cont v) = .len ∧ phaseAfter (.term v) = .head

/-- R72, R73, R88, R89: some words written out from the spec's encodings. -/
def Obligations.SpecWordsDecode : Prop :=
  decodeByte .head 0b01110100 = .ok (.lit 0x74) ∧
    decodeByte .head 0b10000100 = .ok (.runtag 0x04) ∧
    decodeByte .len 0b11111111 = .ok (.cont 0x7F) ∧
    decodeByte .len 0b00101110 = .ok (.term 46) ∧
    decodeCommand 0b001 ⟨[5, 5], 1⟩ = .ok (.scan [5, 5] 1) ∧
    decodeCommand 0b010 ⟨[], 300⟩ = .ok (.vlenc 300) ∧
    decodeCommand 0b011 ⟨[0x84, 3], 1⟩ = .ok (.vldec [0x84, 3] 1) ∧
    decodeCommand 0b100 ⟨[5], 0⟩ = .ok (.encode [5]) ∧
    decodeCommand 0b101 ⟨[5], 0⟩ = .ok (.decode [5]) ∧
    decodeCommand 0b110 ⟨[], 0⟩ = .error (.unassignedCode 6)

/-! The step. -/

/-- R36, R38, R79: a launch whose code decodes runs that command on the state without the move; a busy block that
reads a stream byte runs the instruction the byte decodes to. That the length bytes `VLDEC` reads (R119) run as the
stream instructions `CONT` and `TERM` is the model's choice, log 10. -/
def Obligations.StepRunsTheDecodedInstruction : Prop :=
  ∀ s : State,
    (∀ c o rest i, s.host = .launch c o :: rest → decodeCommand c o = .ok i →
      step s = exec i { s with host := rest }) ∧
    (∀ o ph b p x i, blockIn o ph s → (o, ph) ∈ [(.vldec, .len), (.decode, .head), (.decode, .len)] →
      s.inp = some b → s.rp = some p → memRead b p = some x → decodeByte ph x = .ok i → step s = exec i s)

/-- The model's choice, log 3: a pause of the host gives the step that a silent host gives. -/
def Obligations.PauseGivesTheBlocksStep : Prop :=
  ∀ (s t : State) (rest : List HostMove), s.host = .pause :: rest →
    step { s with host := [] } = .next t → step s = .next { t with host := rest }

/-- R36, R43 and the model's choice, log 6: when `ST ≠ BUSY` and the host is silent, nothing changes. -/
def Obligations.QuiescentBlockWaits : Prop :=
  ∀ s : State, s.host = [] → s.st ≠ .busy → step s = .next s

/-- R42: the values after reset, of `State.reset` and after a reset by the host in any state, `BUSY` included; then
the block does nothing until a launch. -/
def Obligations.ResetGivesTheResetValues : Prop :=
  (State.reset.st = .idle ∧ State.reset.errc = .noError ∧ State.reset.op = 0 ∧ noValues State.reset) ∧
  ∀ (s : State) (rest : List HostMove), s.host = .reset :: rest →
    ∃ t, step s = .next t ∧ t.st = .idle ∧ t.errc = .noError ∧ t.op = 0 ∧ noValues t ∧
      step { t with host := [] } = .next { t with host := [] }

/-- R195: a launch with code 0, 6 or 7 fails with `BadOp`, and `OP` holds the code; every other code is a command. -/
def Obligations.UnassignedCodeFailsWithBadOp : Prop :=
  ∀ (s : State) (c : BitVec 3) (o : Operands) (rest : List HostMove), s.host = .launch c o :: rest →
    (c ∈ [0, 6, 7] → s.st ≠ .busy →
      ∃ t, step s = .next t ∧ failedWith c .badOp { s with host := rest } t) ∧
    (c ∉ [0, 6, 7] → ∃ i, decodeCommand c o = .ok i)

/-- R39 and the model's choice, log 5: a launch while `BUSY` changes nothing. -/
def Obligations.LaunchWhileBusyChangesNothing : Prop :=
  ∀ s : State, s.st = .busy →
    (∀ c o rest, s.host = .launch c o :: rest → step s = .next { s with host := rest }) ∧
    ∀ i, isCommand i = true → exec i s = .next s

/-- R40: what the host gets by reading the status and the result; a read touches nothing else. -/
def Obligations.HostReadsGiveStatusAndResult : Prop :=
  ∀ (s : State) (rest : List HostMove),
    (s.host = .readStatus :: rest →
      step s = .next { s with host := rest, replies := s.replies ++ [.status s.st s.errc s.op] }) ∧
    (s.host = .readResult :: rest →
      (s.st ≠ .done → step s = .next { s with host := rest, replies := s.replies ++ [.refused] }) ∧
      (s.st = .done →
        (∀ n, s.op = Operation.code .scan → s.rlen = some n →
          step s = .next { s with host := rest, replies := s.replies ++ [.result (.runLength n)] }) ∧
        (∀ n p, s.op = Operation.code .vldec → s.rlen = some n → s.rnext = some p →
          step s = .next { s with host := rest, replies := s.replies ++ [.result (.lengthAndNext n p)] }) ∧
        (∀ o b, o ∈ [Operation.vlenc, .encode, .decode] → s.op = Operation.code o → s.out = some b →
          step s = .next { s with host := rest, replies := s.replies ++ [.result (.output b)] })))

/-! Launches. -/

/-- R38: a launch that passes the tests answers the state the last lines of the rule give, for every command. -/
def Obligations.LaunchStartsTheOperation : Prop :=
  ∀ s : State, s.st ≠ .busy →
    (∀ buf start, start < buf.length → within s.cap buf.length →
      exec (.scan buf start) s = .next
        { s with
          op := 1, st := .busy, errc := .noError, out := some [], val := none, rlen := none, rnext := none,
          inp := some buf, rp := some start, acc := some 0, ph := some .head }) ∧
    (∀ n, 1 ≤ n → within s.cap n →
      exec (.vlenc n) s = .next
        { s with
          op := 2, st := .busy, errc := .noError, out := some [], val := none, rlen := none, rnext := none,
          inp := some [], rp := some 0, acc := some n, ph := some .len }) ∧
    (∀ buf pos, within s.cap buf.length → within s.cap pos →
      exec (.vldec buf pos) s = .next
        { s with
          op := 3, st := .busy, errc := .noError, out := some [], val := none, rlen := none, rnext := none,
          inp := some buf, rp := some pos, acc := some 0, ph := some .len }) ∧
    (∀ buf, within s.cap buf.length →
      exec (.encode buf) s = .next
        { s with
          op := 4, st := .busy, errc := .noError, out := some [], val := none, rlen := none, rnext := none,
          inp := some buf, rp := some 0, acc := some 0, ph := some .head }) ∧
    (∀ buf, within s.cap buf.length →
      exec (.decode buf) s = .next
        { s with
          op := 5, st := .busy, errc := .noError, out := some [], val := none, rlen := none, rnext := none,
          inp := some buf, rp := some 0, acc := some 0, ph := some .head })

/-- R104, R115, R194: the launches that violate a precondition, and the error they fail with. -/
def Obligations.PreconditionFailureAtLaunch : Prop :=
  ∀ s : State, s.st ≠ .busy →
    (∀ buf start, buf.length ≤ start → within s.cap buf.length → within s.cap start →
      ∃ t, exec (.scan buf start) s = .next t ∧ failedWith (Operation.code .scan) .scanRange s t) ∧
    ∃ t, exec (.vlenc 0) s = .next t ∧ failedWith (Operation.code .vlenc) .lenRange s t

/-- R196 (a), R198: an operand over a finite `CAP` fails the launch, before the command's own precondition. -/
def Obligations.OperandOverCapacityFailsTheLaunch : Prop :=
  ∀ s : State, s.st ≠ .busy →
    (∀ buf start, ¬ (within s.cap buf.length ∧ within s.cap start) →
      ∃ t, exec (.scan buf start) s = .next t ∧ failedWith (Operation.code .scan) .capacityExceeded s t) ∧
    (∀ n, ¬ within s.cap n →
      ∃ t, exec (.vlenc n) s = .next t ∧ failedWith (Operation.code .vlenc) .capacityExceeded s t) ∧
    (∀ buf pos, ¬ (within s.cap buf.length ∧ within s.cap pos) →
      ∃ t, exec (.vldec buf pos) s = .next t ∧ failedWith (Operation.code .vldec) .capacityExceeded s t) ∧
    (∀ buf, ¬ within s.cap buf.length →
      ∃ t, exec (.encode buf) s = .next t ∧ failedWith (Operation.code .encode) .capacityExceeded s t) ∧
    (∀ buf, ¬ within s.cap buf.length →
      ∃ t, exec (.decode buf) s = .next t ∧ failedWith (Operation.code .decode) .capacityExceeded s t)

/-! Stream bytes. -/

/-- R158: `LIT` appends its byte and moves `RP` on; nothing else changes. -/
def Obligations.LitAppendsItsByte : Prop :=
  ∀ (s : State) (v : Field) (p : Nat) (o : Buffer),
    s.st = .busy → s.op = Operation.code .decode → s.ph = some .head → s.rp = some p → s.out = some o →
    within s.cap (o.length + 1) →
    exec (.lit v) s = .next { s with out := some (o ++ [BitVec.ofNat 8 v.toNat]), rp := some (p + 1) }

/-- R159: `RUNTAG` sets up the run; if the stream ends there the next step raises `MalformedStream`. -/
def Obligations.RuntagSetsUpTheRun : Prop :=
  ∀ (s : State) (v : Field) (p : Nat),
    s.st = .busy → s.op = Operation.code .decode → s.ph = some .head → s.rp = some p →
    ∃ t, exec (.runtag v) s = .next t ∧
      t = { s with val := some (BitVec.ofNat 8 v.toNat), acc := some 0, rp := some (p + 1), ph := some .len } ∧
      ∀ b, s.host = [] → s.inp = some b → b.length = p + 1 →
        ∃ u, step t = .next u ∧ failedWith (Operation.code .decode) .malformedStream s u

/-- R160, R119: `CONT` adds 127 whatever its low bits are and moves `RP` on, for both operations that read length
bytes; over a finite `CAP` it raises `CapacityExceeded` instead (R164, R196). That `VLDEC` reads the byte as `CONT`
is the model's choice, log 10. -/
def Obligations.ContAdds127 : Prop :=
  ∀ (s : State) (x : Field) (p n : Nat),
    s.st = .busy → s.op ∈ [Operation.code .vldec, Operation.code .decode] → s.ph = some .len →
    s.rp = some p → s.acc = some n →
    (within s.cap (n + 127) →
      exec (.cont x) s = .next { s with acc := some (n + 127), rp := some (p + 1) }) ∧
    (¬ within s.cap (n + 127) →
      ∃ t, exec (.cont x) s = .next t ∧ failedWith s.op .capacityExceeded s t)

/-- R161, R119: `TERM` adds its value and moves `RP` on; `DECODE` goes to `EXP`, `VLDEC` is done with its results;
over a finite `CAP` it raises `CapacityExceeded` instead (R164, R196). That `VLDEC` reads the byte as `TERM` is the
model's choice, log 10. -/
def Obligations.TermAddsItsValueAndEndsTheLength : Prop :=
  ∀ (s : State) (v : Field) (p n : Nat),
    s.st = .busy → s.ph = some .len → s.rp = some p → s.acc = some n →
    (s.op = Operation.code .decode → within s.cap (n + v.toNat) →
      exec (.term v) s = .next { s with acc := some (n + v.toNat), rp := some (p + 1), ph := some .exp }) ∧
    (s.op = Operation.code .vldec → within s.cap (n + v.toNat) →
      exec (.term v) s = .next
        { s with
          acc := some (n + v.toNat), rp := some (p + 1), rlen := some (n + v.toNat), rnext := some (p + 1),
          st := .done }) ∧
    (s.op ∈ [Operation.code .vldec, Operation.code .decode] → ¬ within s.cap (n + v.toNat) →
      ∃ t, exec (.term v) s = .next t ∧ failedWith s.op .capacityExceeded s t)

/-- The model's choice, log 11: a stream byte in a state in which the block reads no byte of its class is refused
by name. -/
def Obligations.StreamByteNotReadIsRefused : Prop :=
  ∀ (s : State) (v : Field),
    (¬ (s.st = .busy ∧ s.op = Operation.code .decode ∧ s.ph = some .head) →
      exec (.lit v) s = .refused (.byteNotRead "LIT") ∧
        exec (.runtag v) s = .refused (.byteNotRead "RUNTAG")) ∧
    (¬ (s.st = .busy ∧ s.op ∈ [Operation.code .vldec, Operation.code .decode] ∧ s.ph = some .len) →
      exec (.cont v) s = .refused (.byteNotRead "CONT") ∧
        exec (.term v) s = .refused (.byteNotRead "TERM"))

/-- R158 to R161, R119: what each stream byte leaves unchanged when it does not raise an error. That `VLDEC` reads its
length bytes as `CONT` and `TERM` is the model's choice, log 10. -/
def Obligations.StreamByteFrame : Prop :=
  ∀ (s t : State) (v : Field), t.st ≠ .err →
    (exec (.lit v) s = .next t →
      t = { s with rp := t.rp, out := t.out } ∧
        ∀ o, s.out = some o → ∃ o', t.out = some o' ∧ ∀ a, a ≠ o.length → memRead o' a = memRead o a) ∧
    (exec (.runtag v) s = .next t →
      t = { s with val := t.val, acc := t.acc, rp := t.rp, ph := t.ph }) ∧
    (exec (.cont v) s = .next t → t = { s with acc := t.acc, rp := t.rp }) ∧
    (exec (.term v) s = .next t →
      (s.op = Operation.code .decode → t = { s with acc := t.acc, rp := t.rp, ph := t.ph }) ∧
      (s.op = Operation.code .vldec →
        t = { s with acc := t.acc, rp := t.rp, rlen := t.rlen, rnext := t.rnext, st := t.st }))

/-- R41, R177: a command that is not turned away reads nothing of the block's registers, and writes nothing but
them: from two states with the same `CAP` it leaves the same registers. -/
def Obligations.CommandsIgnoreTheBlocksHistory : Prop :=
  ∀ (i : Instr) (s s' t : State), isCommand i = true → s.st ≠ .busy → s'.st ≠ .busy → s.cap = s'.cap →
    exec i s = .next t → exec i s' = .next (withBlockOf t s') ∧ t = withBlockOf t s

/-! Step rules. -/

/-- R102. -/
def Obligations.ScanHeadStep : Prop :=
  ∀ (s : State) (b : Buffer) (p : Nat) (v : Byte),
    blockIn .scan .head s → s.inp = some b → s.rp = some p → memRead b p = some v →
    step s = .next { s with val := some v, acc := some 1, ph := some .count }

/-- R103; the test against `CAP` is R196 (c)'s, which the rule says cannot fail in an operation of the block. -/
def Obligations.ScanCountStep : Prop :=
  ∀ (s : State) (b : Buffer) (p n : Nat) (v : Byte),
    blockIn .scan .count s → s.inp = some b → s.rp = some p → s.acc = some n → s.val = some v →
    (memRead b (p + n) = some v → within s.cap (n + 1) → step s = .next { s with acc := some (n + 1) }) ∧
    (memRead b (p + n) ≠ some v → step s = .next { s with rlen := some n, st := .done })

/-- R114. -/
def Obligations.VlencStep : Prop :=
  ∀ (s : State) (n : Nat) (o : Buffer),
    blockIn .vlenc .len s → s.acc = some n → 1 ≤ n → s.out = some o → within s.cap (o.length + 1) →
    (127 < n → step s = .next { s with out := some (o ++ [0xFF]), acc := some (n - 127) }) ∧
    (n ≤ 127 → step s = .next { s with out := some (o ++ [BitVec.ofNat 8 n]), st := .done })

/-- R119. -/
def Obligations.VldecStep : Prop :=
  ∀ (s : State) (b : Buffer) (p n : Nat),
    blockIn .vldec .len s → s.inp = some b → s.rp = some p → s.acc = some n →
    (b.length ≤ p → ∃ t, step s = .next t ∧ failedWith (Operation.code .vldec) .malformedStream s t) ∧
    ∀ x : Byte, memRead b p = some x →
      (0x80 ≤ x.toNat → within s.cap (n + 127) →
        step s = .next { s with rp := some (p + 1), acc := some (n + 127) }) ∧
      (x.toNat ≤ 0x7F → within s.cap (n + x.toNat) →
        step s = .next
          { s with
            rp := some (p + 1), acc := some (n + x.toNat), rlen := some (n + x.toNat), rnext := some (p + 1),
            st := .done })

/-- R137. -/
def Obligations.EncodeHeadStep : Prop :=
  ∀ (s : State) (b : Buffer) (p : Nat),
    blockIn .encode .head s → s.inp = some b → s.rp = some p →
    (b.length ≤ p → step s = .next { s with st := .done }) ∧
    ∀ v : Byte, memRead b p = some v →
      step s = .next { s with val := some v, acc := some 1, ph := some .count }

/-- R138; the test against `CAP` in the first branch is R196 (c)'s. -/
def Obligations.EncodeCountStep : Prop :=
  ∀ (s : State) (b : Buffer) (p n : Nat) (v : Byte) (o : Buffer),
    blockIn .encode .count s → s.inp = some b → s.rp = some p → s.acc = some n → s.val = some v →
    s.out = some o →
    (memRead b (p + n) = some v → within s.cap (n + 1) → step s = .next { s with acc := some (n + 1) }) ∧
    (memRead b (p + n) ≠ some v → within s.cap (o.length + 1) →
      (n = 1 ∧ v.toNat ≤ 0x7F →
        step s = .next { s with rp := some (p + n), out := some (o ++ [v]), ph := some .head }) ∧
      (¬ (n = 1 ∧ v.toNat ≤ 0x7F) →
        step s = .next { s with rp := some (p + n), out := some (o ++ [v ||| 0x80]), ph := some .len }))

/-- R139. -/
def Obligations.EncodeLenStep : Prop :=
  ∀ (s : State) (n : Nat) (o : Buffer),
    blockIn .encode .len s → s.acc = some n → 1 ≤ n → s.out = some o → within s.cap (o.length + 1) →
    (127 < n → step s = .next { s with out := some (o ++ [0xFF]), acc := some (n - 127) }) ∧
    (n ≤ 127 → step s = .next { s with out := some (o ++ [BitVec.ofNat 8 n]), ph := some .head })

/-- R155. -/
def Obligations.DecodeHeadStep : Prop :=
  ∀ (s : State) (b : Buffer) (p : Nat) (o : Buffer),
    blockIn .decode .head s → s.inp = some b → s.rp = some p → s.out = some o →
    (b.length ≤ p → step s = .next { s with st := .done }) ∧
    ∀ x : Byte, memRead b p = some x →
      (x.toNat ≤ 0x7F → within s.cap (o.length + 1) →
        step s = .next { s with rp := some (p + 1), out := some (o ++ [x]) }) ∧
      (0x80 ≤ x.toNat →
        step s = .next
          { s with rp := some (p + 1), val := some (x &&& 0x7F), acc := some 0, ph := some .len })

/-- R156. -/
def Obligations.DecodeLenStep : Prop :=
  ∀ (s : State) (b : Buffer) (p n : Nat),
    blockIn .decode .len s → s.inp = some b → s.rp = some p → s.acc = some n →
    (b.length ≤ p → ∃ t, step s = .next t ∧ failedWith (Operation.code .decode) .malformedStream s t) ∧
    ∀ x : Byte, memRead b p = some x →
      (0x80 ≤ x.toNat → within s.cap (n + 127) →
        step s = .next { s with rp := some (p + 1), acc := some (n + 127) }) ∧
      (x.toNat ≤ 0x7F → within s.cap (n + x.toNat) →
        step s = .next { s with rp := some (p + 1), acc := some (n + x.toNat), ph := some .exp })

/-- R157: one step of the expansion, each append guarded by its own room in `OUT` alone, and the whole phase where
all the copies fit: `n` copies and one step that finds `ACC = 0`. -/
def Obligations.DecodeExpStep : Prop :=
  ∀ (s : State) (n : Nat), blockIn .decode .exp s → s.acc = some n →
    (n = 0 → step s = .next { s with ph := some .head }) ∧
    ∀ (v : Byte) (o : Buffer), s.val = some v → s.out = some o →
      (1 ≤ n → within s.cap (o.length + 1) →
        step s = .next { s with out := some (o ++ [v]), acc := some (n - 1) }) ∧
      (within s.cap (o.length + n) →
        stepsTo (n + 1) s =
          some { s with out := some (o ++ List.replicate n v), acc := some 0, ph := some .head })

/-- R196 (b): a step that would append when `|OUT| = CAP` raises `CapacityExceeded`, in every rule that appends. -/
def Obligations.AppendOverCapacityRaises : Prop :=
  ∀ (s : State) (o : Buffer), s.out = some o → ¬ within s.cap (o.length + 1) →
    ((∀ n, blockIn .vlenc .len s → s.acc = some n →
        ∃ t, step s = .next t ∧ failedWith (Operation.code .vlenc) .capacityExceeded s t) ∧
      (∀ n, blockIn .encode .len s → s.acc = some n →
        ∃ t, step s = .next t ∧ failedWith (Operation.code .encode) .capacityExceeded s t) ∧
      (∀ b p n v, blockIn .encode .count s → s.inp = some b → s.rp = some p → s.acc = some n →
        s.val = some v → memRead b (p + n) ≠ some v →
        ∃ t, step s = .next t ∧ failedWith (Operation.code .encode) .capacityExceeded s t) ∧
      (∀ b p x, blockIn .decode .head s → s.inp = some b → s.rp = some p → memRead b p = some x →
        x.toNat ≤ 0x7F → ∃ t, step s = .next t ∧ failedWith (Operation.code .decode) .capacityExceeded s t) ∧
      (∀ n v, blockIn .decode .exp s → s.acc = some n → 1 ≤ n → s.val = some v →
        ∃ t, step s = .next t ∧ failedWith (Operation.code .decode) .capacityExceeded s t))

/-! Rules of the whole machine. -/

/-- R197, R192: a step that enters `ERR` leaves no register but `ST`, `ERRC` and `OP` with a value, gives an error
code that is neither 0 nor `InvalidInput`, and keeps the command code of an operation in flight. -/
def Obligations.ErrorEntryLeavesOnlyTheCode : Prop :=
  ∀ s t : State, s.st ≠ .err → step s = .next t → t.st = .err →
    noValues t ∧ t.errc ≠ .noError ∧ t.errc ≠ .invalidInput ∧ (s.st = .busy → t.op = s.op)

/-- R34, R56: the block's own step never writes `IN`, and changes `OUT` only by one append; an error discards both. -/
def Obligations.BlockNeverWritesInputAndOnlyAppendsOutput : Prop :=
  ∀ s t : State, s.host = [] → step s = .next t →
    (t.inp = s.inp ∧ (t.out = s.out ∨ ∃ o v, s.out = some o ∧ t.out = some (o ++ [v]))) ∨
      (t.st = .err ∧ t.inp = none ∧ t.out = none)

/-- Log 2, log 3: no step writes `CAP`, and only a read of the host adds to what it has read. -/
def Obligations.StepKeepsCapacityAndReplies : Prop :=
  ∀ s t : State, step s = .next t →
    t.cap = s.cap ∧
      (t.replies = s.replies ∨
        ((s.host.head? = some .readStatus ∨ s.host.head? = some .readResult) ∧
          ∃ r, t.replies = s.replies ++ [r]))

/-- R26, R30, R32, R36, R37, R42, R197: the invariant holds after reset. -/
def Obligations.ResetMeetsTheInvariant : Prop := MachineInv State.reset

/-- R26, R30, R32, R36, R37, R197: every step keeps the invariant. -/
def Obligations.StepKeepsTheInvariant : Prop :=
  ∀ s t : State, MachineInv s → step s = .next t → MachineInv t

/-- R36, R37, R55: from a state that meets the invariant a step always answers a next state: no register that holds
`⊥` is read, no byte outside `IN` is read, no `(OP, PH)` pair lacks a rule. -/
def Obligations.StepFromTheInvariantAnswersANextState : Prop :=
  ∀ s : State, MachineInv s → ∃ t, step s = .next t

/-- R233, R178: with a silent host every operation in flight ends. -/
def Obligations.EveryOperationEnds : Prop :=
  ∀ s : State, MachineInv s → s.host = [] → s.st = .busy → ∃ k t, stepsTo k s = some t ∧ ended t = true

/-! Whole operations. -/

/-- R101, R103, R106: `SCAN` runs to its result in `1 + scan(buf, start)` steps. -/
def Obligations.ScanRunsToItsResult : Prop :=
  ∀ (s : State) (buf : Buffer) (start n : Nat),
    s.st ≠ .busy → s.host = [] → within s.cap buf.length → scanFn buf start = some n →
    ∃ t u, exec (.scan buf start) s = .next t ∧ stepsTo (scanSteps n) t = some u ∧
      u.st = .done ∧ u.errc = .noError ∧ u.op = Operation.code .scan ∧ u.rlen = some n ∧
      u.rp = some start ∧ u.out = some [] ∧ readResult u = .result (.runLength n)

/-- R112, R114, R116: `VLENC` runs to its result in `ceil(L / 127)` steps. -/
def Obligations.VlencRunsToItsResult : Prop :=
  ∀ (s : State) (n : Nat), s.st ≠ .busy → s.host = [] → 1 ≤ n → within s.cap n →
    ∃ t u, exec (.vlenc n) s = .next t ∧ stepsTo (lengthBytes n) t = some u ∧
      u.st = .done ∧ u.errc = .noError ∧ u.op = Operation.code .vlenc ∧ u.out = some (vlencFn n) ∧
      readResult u = .result (.output (vlencFn n))

/-- R117, R119, R122, R196: `VLDEC` runs to its result in one step per length byte; to `CapacityExceeded` where the
length is over a finite `CAP`; where no terminator follows, to `MalformedStream`, or to `CapacityExceeded` if the
length bytes that are there already pass a finite `CAP`. -/
def Obligations.VldecRunsToItsResult : Prop :=
  ∀ (s : State) (buf : Buffer) (pos : Nat), s.st ≠ .busy → s.host = [] →
    within s.cap buf.length → within s.cap pos →
    (∀ n next, vldecFn buf pos = some (n, next) → within s.cap n →
      ∃ t u, exec (.vldec buf pos) s = .next t ∧ stepsTo (next - pos) t = some u ∧
        u.st = .done ∧ u.errc = .noError ∧ u.op = Operation.code .vldec ∧ u.rlen = some n ∧
        u.rnext = some next ∧ u.rp = some next ∧ readResult u = .result (.lengthAndNext n next)) ∧
    (∀ n next, vldecFn buf pos = some (n, next) → ¬ within s.cap n →
      ∃ t k u, exec (.vldec buf pos) s = .next t ∧ stepsTo k t = some u ∧
        failedWith (Operation.code .vldec) .capacityExceeded s u) ∧
    (vldecFn buf pos = none → within s.cap (127 * (buf.length - pos)) →
      ∃ t u, exec (.vldec buf pos) s = .next t ∧ stepsTo (buf.length - pos + 1) t = some u ∧
        failedWith (Operation.code .vldec) .malformedStream s u) ∧
    (vldecFn buf pos = none → ¬ within s.cap (127 * (buf.length - pos)) →
      ∃ t k u, exec (.vldec buf pos) s = .next t ∧ stepsTo k t = some u ∧
        failedWith (Operation.code .vldec) .capacityExceeded s u)

/-- R135, R140, R145: `ENCODE` runs to its result, run by run, in the steps R145 counts. -/
def Obligations.EncodeRunsToItsResult : Prop :=
  ∀ (s : State) (buf : Buffer),
    s.st ≠ .busy → s.host = [] → within s.cap buf.length → within s.cap (encodeFn buf).length →
    ∃ t u, exec (.encode buf) s = .next t ∧ stepsTo (encodeSteps buf) t = some u ∧
      u.st = .done ∧ u.errc = .noError ∧ u.op = Operation.code .encode ∧ u.out = some (encodeFn buf) ∧
      u.rp = some buf.length ∧ readResult u = .result (.output (encodeFn buf))

/-- R144, R196: an output that does not fit a finite `CAP` ends `ENCODE` with `CapacityExceeded` and no output. -/
def Obligations.EncodeOverCapacityEndsInError : Prop :=
  ∀ (s : State) (buf : Buffer),
    s.st ≠ .busy → s.host = [] → within s.cap buf.length → ¬ within s.cap (encodeFn buf).length →
    ∃ t k u, exec (.encode buf) s = .next t ∧ stepsTo k t = some u ∧
      failedWith (Operation.code .encode) .capacityExceeded s u

/-- R163, R166: `DECODE` of a stream of records runs to `decode(buf)` in the steps R166 counts; of any other stream,
with `CAP = ∞`, to `MalformedStream`. The runs that fail on a finite `CAP` are `DecodeOverCapacityEndsInError`'s. -/
def Obligations.DecodeRunsToItsResult : Prop :=
  ∀ s : State, s.st ≠ .busy → s.host = [] →
    (∀ rs out, decodeFn (streamBytes rs) = some out →
      within s.cap (streamBytes rs).length → within s.cap out.length →
      ∃ t u, exec (.decode (streamBytes rs)) s = .next t ∧ stepsTo (decodeSteps rs) t = some u ∧
        u.st = .done ∧ u.errc = .noError ∧ u.op = Operation.code .decode ∧ u.out = some out ∧
        u.rp = some (streamBytes rs).length ∧ readResult u = .result (.output out)) ∧
    (∀ buf, decodeFn buf = none → s.cap = none →
      ∃ t k u, exec (.decode buf) s = .next t ∧ stepsTo k t = some u ∧
        failedWith (Operation.code .decode) .malformedStream s u)

/-- R162, R164, R196: with a finite `CAP`, a buffer whose decoding does not fit ends `DECODE` with
`CapacityExceeded` and no output, a run length over `CAP` included. A buffer that ends inside a run record (the
records `rs`, then a tag and continuation bytes) ends in `MalformedStream` if the output of `rs` and the length read
so far fit, and in `CapacityExceeded` otherwise. -/
def Obligations.DecodeOverCapacityEndsInError : Prop :=
  ∀ s : State, s.st ≠ .busy → s.host = [] →
    (∀ buf out, decodeFn buf = some out → within s.cap buf.length → ¬ within s.cap out.length →
      ∃ t k u, exec (.decode buf) s = .next t ∧ stepsTo k t = some u ∧
        failedWith (Operation.code .decode) .capacityExceeded s u) ∧
    (∀ (rs : List Record) (v : Field) (conts : List Field) (buf : Buffer),
      buf = streamBytes rs ++ markedByte v :: conts.map markedByte → within s.cap buf.length →
      ∃ t k u, exec (.decode buf) s = .next t ∧ stepsTo k t = some u ∧
        failedWith (Operation.code .decode)
          (if within s.cap (rs.flatMap recordOutput).length ∧ within s.cap (127 * conts.length) then .malformedStream
            else .capacityExceeded) s u)

/-- R170 on the machine (the host sequence P5 of 95_test_vectors.md): encoding a buffer and decoding what came out
gives the buffer with bit 7 of every byte cleared. -/
def Obligations.MachineRoundTripClearsBit7 : Prop :=
  ∀ (s : State) (buf : Buffer), s.st ≠ .busy → s.host = [] → s.cap = none →
    ∃ t k u e, exec (.encode buf) s = .next t ∧ stepsTo k t = some u ∧ u.st = .done ∧ u.out = some e ∧
      ∃ t' k' u', exec (.decode e) u = .next t' ∧ stepsTo k' t' = some u' ∧ u'.st = .done ∧
        u'.out = some (buf.map fun x => x &&& 0x7F)

/-! The functions. -/

/-- R101: `scan` is the greatest run length at `start`, and has a value exactly within the precondition. -/
def Obligations.ScanIsTheGreatestRun : Prop :=
  ∀ (buf : Buffer) (start : Nat),
    (buf.length ≤ start → scanFn buf start = none) ∧
    (start < buf.length →
      ∃ n, scanFn buf start = some n ∧ 1 ≤ n ∧ start + n ≤ buf.length ∧
        (∀ j, j < n → buf[start + j]? = buf[start]?) ∧
        ∀ m, start + m ≤ buf.length → (∀ j, j < m → buf[start + j]? = buf[start]?) → m ≤ n)

/-- R112, R117, R135, R151: the functions meet the recursions the rules write. -/
def Obligations.FunctionsMeetTheirRecursions : Prop :=
  (∀ n, vlencFn n = if n > 127 then [0xFF] ++ vlencFn (n - 127) else [BitVec.ofNat 8 n]) ∧
  (∀ (buf : Buffer) p acc,
    vldecLoop (buf.drop p) p acc =
      match buf[p]? with
      | none => none
      | some x =>
        if 0x80 ≤ x.toNat then vldecLoop (buf.drop (p + 1)) (p + 1) (acc + 127)
        else some (acc + x.toNat, p + 1)) ∧
  (∀ (buf : Buffer) i, buf.length ≤ i → encodeFn (buf.drop i) = []) ∧
  (∀ (buf : Buffer) i v n, buf[i]? = some v → scanFn buf i = some n →
    encodeFn (buf.drop i) =
      (if n = 1 ∧ v.toNat ≤ 0x7F then [v] else [v ||| 0x80] ++ vlencFn n) ++ encodeFn (buf.drop (i + n))) ∧
  (∀ (buf : Buffer) i, buf.length ≤ i → decodeFn (buf.drop i) = some []) ∧
  (∀ (buf : Buffer) i x, buf[i]? = some x →
    (x.toNat ≤ 0x7F → decodeFn (buf.drop i) = (decodeFn (buf.drop (i + 1))).map fun b => [x] ++ b) ∧
    (0x80 ≤ x.toNat → vldecFn buf (i + 1) = none → decodeFn (buf.drop i) = none) ∧
    (∀ n next, 0x80 ≤ x.toNat → vldecFn buf (i + 1) = some (n, next) →
      decodeFn (buf.drop i) =
        (decodeFn (buf.drop next)).map fun b => List.replicate n (x &&& 0x7F) ++ b))

/-- R113: the closed form of `vlenc`. -/
def Obligations.VlencClosedForm : Prop :=
  ∀ n, 1 ≤ n →
    vlencFn n = List.replicate ((n - 1) / 127) 0xFF ++ [BitVec.ofNat 8 (n - 127 * ((n - 1) / 127))] ∧
      1 ≤ n - 127 * ((n - 1) / 127) ∧ n - 127 * ((n - 1) / 127) ≤ 127 ∧
      (vlencFn n).length = (n - 1) / 127 + 1 ∧ (n - 1) / 127 + 1 = (n + 126) / 127

/-- R121: `vldec` undoes `vlenc`, wherever the length bytes stand. -/
def Obligations.VldecUndoesVlenc : Prop :=
  ∀ (pre rest : Buffer) (n : Nat), 1 ≤ n →
    vldecFn (pre ++ vlencFn n ++ rest) pre.length = some (n, pre.length + (vlencFn n).length)

/-- R152: `decode` of the bytes of records is what the records stand for, and every byte of it is at most 0x7F; a
buffer that is no sequence of records is malformed. -/
def Obligations.DecodeOfRecordsIsTheirOutput : Prop :=
  (∀ rs : List Record, decodeFn (streamBytes rs) = some (rs.flatMap recordOutput) ∧
    sevenBit (rs.flatMap recordOutput) = true) ∧
  ∀ buf : Buffer, (¬ ∃ rs, buf = streamBytes rs) → decodeFn buf = none

/-- R83, R174: `decode` rejects a stream exactly when it is not empty and its last byte has the high bit set; the
streams it accepts are exactly the sequences of records. -/
def Obligations.MalformedIffTheLastByteIsHigh : Prop :=
  ∀ e : Buffer,
    (decodeFn e = none ↔ ∃ x, e.getLast? = some x ∧ 0x80 ≤ x.toNat) ∧
    (wellFormedStream e = true ↔ ∃ rs, e = streamBytes rs) ∧
    (wellFormedStream e = true ↔ (decodeFn e).isSome = true)

/-- R170: the round-trip law, with the length of the result. -/
def Obligations.RoundTripClearsBit7 : Prop :=
  ∀ b : Buffer,
    decodeFn (encodeFn b) = some (strip7 b) ∧ (strip7 b).length = b.length ∧
      (decodeFn (encodeFn b) = some b ↔ sevenBit b = true)

/-- R141: every output of `encode` is canonical and at most twice as long as the input, and no longer than a
seven-bit input. -/
def Obligations.EncodeOutputIsCanonicalAndBounded : Prop :=
  ∀ b : Buffer,
    (∃ rs, encodeFn b = streamBytes rs ∧ rs.all canonicalRecord = true) ∧
      (encodeFn b).length ≤ 2 * b.length ∧ (sevenBit b = true → (encodeFn b).length ≤ b.length)

/-- R85: the streams `encode` gives on seven-bit inputs, and the input each comes from. -/
def Obligations.EncoderImageOnSevenBitInputs : Prop :=
  ∀ e : Buffer,
    ((∃ b, sevenBit b = true ∧ encodeFn b = e) ↔ ∃ rs, e = streamBytes rs ∧ encoderImage rs = true) ∧
      ∀ b, sevenBit b = true → encodeFn b = e → decodeFn e = some b

/-- R172: a seven-bit buffer without adjacent repeats is encoded and decoded as itself; without the seven-bit
condition every byte above 0x7F costs one byte more. -/
def Obligations.LiteralOnlyInputIsUnchanged : Prop :=
  ∀ b : Buffer, (∀ i x, b[i]? = some x → b[i + 1]? ≠ some x) →
    (sevenBit b = true → encodeFn b = b ∧ decodeFn b = some b) ∧
      (encodeFn b).length = b.length + (b.filter fun x => 0x80 ≤ x.toNat).length

/-- R173: the encoding of `n` repeats of a value; its terminator is in 1 to 127. -/
def Obligations.RunBoundaryLayout : Prop :=
  ∀ (v : Byte) (n : Nat), 1 ≤ n →
    (n = 1 ∧ v.toNat ≤ 0x7F → encodeFn (List.replicate n v) = [v]) ∧
    (¬ (n = 1 ∧ v.toNat ≤ 0x7F) →
      encodeFn (List.replicate n v) =
        [v ||| 0x80] ++ List.replicate ((n + 126) / 127 - 1) 0xFF ++
          [BitVec.ofNat 8 (n - 127 * ((n + 126) / 127 - 1))] ∧
        1 ≤ n - 127 * ((n + 126) / 127 - 1) ∧ n - 127 * ((n + 126) / 127 - 1) ≤ 127)

/-- R180: `decode` of a well-formed stream followed by another; `encode` of two buffers with no run across the
joint; and across any joint the two streams decode alike. -/
def Obligations.ConcatenationOfStreamsAndBuffers : Prop :=
  (∀ e e', wellFormedStream e = true →
    decodeFn (e ++ e') =
      match decodeFn e, decodeFn e' with
      | some b, some b' => some (b ++ b')
      | _, _ => none) ∧
  ∀ a b : Buffer,
    (a = [] ∨ b = [] ∨ a.getLast? ≠ b.head? → encodeFn (a ++ b) = encodeFn a ++ encodeFn b) ∧
    decodeFn (encodeFn (a ++ b)) = some (strip7 (a ++ b)) ∧
    decodeFn (encodeFn a ++ encodeFn b) = some (strip7 (a ++ b))
end

