-- ==== Sys2Proof/Laws/Bytes.lean ====
section
/-! SUPPORT. The tests and the fields of a byte in plain numbers. -/

namespace Sys2Proof.Machine

theorem overChunk_iff (n : Nat) : overChunk n = true ↔ 127 < n := decide_eq_true_iff

theorem overChunk_false_iff (n : Nat) : overChunk n = false ↔ n ≤ 127 := by
  rw [← Bool.not_eq_true, overChunk_iff]; omega

theorem highBit_iff (x : Byte) : highBit x = true ↔ 0x80 ≤ x.toNat := by
  simp [highBit, BitVec.msb_eq_decide]

theorem highBit_false_iff (x : Byte) : highBit x = false ↔ x.toNat ≤ 0x7F := by
  rw [← Bool.not_eq_true, highBit_iff]; omega

theorem literalRun_iff (n : Nat) (v : Byte) : literalRun n v = true ↔ n = 1 ∧ v.toNat ≤ 0x7F := by
  simp [literalRun, highBit_false_iff]

theorem lowField_of_low (x : Byte) (h : x.toNat ≤ 0x7F) : (lowField x).toNat = x.toNat := by
  simp only [lowField, BitVec.extractLsb'_toNat, Nat.shiftRight_zero]
  exact Nat.mod_eq_of_lt (by omega)

theorem fieldByte_toNat (v : Field) : (fieldByte v).toNat = v.toNat := by
  simp [fieldByte]; omega

theorem fieldByte_lowField : ∀ x : Byte, fieldByte (lowField x) = clearMark x := by decide

theorem lowField_fieldByte : ∀ v : Field, lowField (fieldByte v) = v := by decide

theorem lowField_markedByte : ∀ v : Field, lowField (markedByte v) = v := by decide

theorem highBit_fieldByte : ∀ v : Field, highBit (fieldByte v) = false := by decide

theorem highBit_markedByte : ∀ v : Field, highBit (markedByte v) = true := by decide

theorem clearMark_markByte : ∀ v : Byte, clearMark (markByte v) = clearMark v := by decide

theorem clearMark_of_low (x : Byte) (h : highBit x = false) : clearMark x = x := by
  revert x; decide

theorem highBit_clearMark : ∀ x : Byte, highBit (clearMark x) = false := by decide

theorem highBit_markByte : ∀ v : Byte, highBit (markByte v) = true := by decide

end Sys2Proof.Machine
end

