-- ==== Sys2Proof/Laws/Memory.lean ====
section
/-! SUPPORT. The laws of the two buffers: reading, appending, and the canonical form of a buffer's cells. -/

namespace Sys2Proof.Machine

/-- `MemRead` has no value exactly outside the buffer (R55). -/
theorem memRead_none_iff (b : Buffer) (a : Nat) : memRead b a = none ↔ b.length ≤ a := by
  simp [memRead]

/-- The byte appended is read back at the old length (R56). -/
theorem memRead_append_new (b : Buffer) (v : Byte) : memRead (b ++ [v]) b.length = some v := by
  simp [memRead]

/-- An append leaves every other address as it was (R56). -/
theorem memRead_append_other (b : Buffer) (v : Byte) (a : Nat) (h : a ≠ b.length) :
    memRead (b ++ [v]) a = memRead b a := by
  simp only [memRead]
  rcases Nat.lt_or_gt_of_ne h with h | h
  · exact List.getElem?_append_left h
  · rw [List.getElem?_append_right (Nat.le_of_lt h), List.getElem?_eq_none (Nat.le_of_lt h)]
    exact List.getElem?_eq_none (by simp; omega)

theorem bufferCells_length (b : Buffer) : (bufferCells b).length = b.length := by
  simp [bufferCells]

/-- The addresses of a buffer's cells are 0, 1, 2, …: every buffer is in canonical form. -/
theorem bufferCells_wf (b : Buffer) : Memory.wf (bufferCells b) = true := by
  simp only [Memory.wf, bufferCells_length, beq_iff_eq]
  exact List.map_fst_zip (by simp)

/-- Equal cells are equal buffers. -/
theorem bufferCells_injective {b c : Buffer} (h : bufferCells b = bufferCells c) : b = c := by
  have hb : (bufferCells b).map Prod.snd = b := List.map_snd_zip (by simp)
  have hc : (bufferCells c).map Prod.snd = c := List.map_snd_zip (by simp)
  rw [← hb, ← hc, h]

/-- An append adds the one cell at the old length and keeps the canonical form. -/
theorem bufferCells_append (b : Buffer) (v : Byte) : bufferCells (b ++ [v]) = bufferCells b ++ [(b.length, v)] := by
  simp [bufferCells, List.range_succ, List.zip_append]

/-- The buffers of the machine after reset: there are none (R42). -/
theorem reset_cells_wf :
    ∀ b, State.reset.inp = some b ∨ State.reset.out = some b → Memory.wf (bufferCells b) = true := by
  intro b _
  exact bufferCells_wf b

end Sys2Proof.Machine
end

