-- ==== Sys2Proof/Laws/State.lean ====
section
/-! SUPPORT. What each named update of the state does to each field, so that no proof unfolds a record update. -/

namespace Sys2Proof.Machine

/-! Each field after raise. -/

@[simp] theorem raise_op (e : ErrCode) (s : State) : (raise e s).op = s.op := rfl
@[simp] theorem raise_st (e : ErrCode) (s : State) : (raise e s).st = .err := rfl
@[simp] theorem raise_errc (e : ErrCode) (s : State) : (raise e s).errc = e := rfl
@[simp] theorem raise_ph (e : ErrCode) (s : State) : (raise e s).ph = none := rfl
@[simp] theorem raise_rp (e : ErrCode) (s : State) : (raise e s).rp = none := rfl
@[simp] theorem raise_acc (e : ErrCode) (s : State) : (raise e s).acc = none := rfl
@[simp] theorem raise_val (e : ErrCode) (s : State) : (raise e s).val = none := rfl
@[simp] theorem raise_rlen (e : ErrCode) (s : State) : (raise e s).rlen = none := rfl
@[simp] theorem raise_rnext (e : ErrCode) (s : State) : (raise e s).rnext = none := rfl
@[simp] theorem raise_inp (e : ErrCode) (s : State) : (raise e s).inp = none := rfl
@[simp] theorem raise_out (e : ErrCode) (s : State) : (raise e s).out = none := rfl
@[simp] theorem raise_cap (e : ErrCode) (s : State) : (raise e s).cap = s.cap := rfl
@[simp] theorem raise_host (e : ErrCode) (s : State) : (raise e s).host = s.host := rfl
@[simp] theorem raise_replies (e : ErrCode) (s : State) : (raise e s).replies = s.replies := rfl

/-! Each field after done. -/

@[simp] theorem finish_op (s : State) : (finish s).op = s.op := rfl
@[simp] theorem finish_st (s : State) : (finish s).st = .done := rfl
@[simp] theorem finish_errc (s : State) : (finish s).errc = s.errc := rfl
@[simp] theorem finish_ph (s : State) : (finish s).ph = s.ph := rfl
@[simp] theorem finish_rp (s : State) : (finish s).rp = s.rp := rfl
@[simp] theorem finish_acc (s : State) : (finish s).acc = s.acc := rfl
@[simp] theorem finish_val (s : State) : (finish s).val = s.val := rfl
@[simp] theorem finish_rlen (s : State) : (finish s).rlen = s.rlen := rfl
@[simp] theorem finish_rnext (s : State) : (finish s).rnext = s.rnext := rfl
@[simp] theorem finish_inp (s : State) : (finish s).inp = s.inp := rfl
@[simp] theorem finish_out (s : State) : (finish s).out = s.out := rfl
@[simp] theorem finish_cap (s : State) : (finish s).cap = s.cap := rfl
@[simp] theorem finish_host (s : State) : (finish s).host = s.host := rfl
@[simp] theorem finish_replies (s : State) : (finish s).replies = s.replies := rfl

/-! Each field after a failed launch. -/

@[simp] theorem failLaunch_op (c : BitVec 3) (e : ErrCode) (s : State) : (failLaunch c e s).op = c := rfl
@[simp] theorem failLaunch_st (c : BitVec 3) (e : ErrCode) (s : State) : (failLaunch c e s).st = .err := rfl
@[simp] theorem failLaunch_errc (c : BitVec 3) (e : ErrCode) (s : State) : (failLaunch c e s).errc = e := rfl
@[simp] theorem failLaunch_ph (c : BitVec 3) (e : ErrCode) (s : State) : (failLaunch c e s).ph = none := rfl
@[simp] theorem failLaunch_rp (c : BitVec 3) (e : ErrCode) (s : State) : (failLaunch c e s).rp = none := rfl
@[simp] theorem failLaunch_acc (c : BitVec 3) (e : ErrCode) (s : State) : (failLaunch c e s).acc = none := rfl
@[simp] theorem failLaunch_val (c : BitVec 3) (e : ErrCode) (s : State) : (failLaunch c e s).val = none := rfl
@[simp] theorem failLaunch_rlen (c : BitVec 3) (e : ErrCode) (s : State) : (failLaunch c e s).rlen = none := rfl
@[simp] theorem failLaunch_rnext (c : BitVec 3) (e : ErrCode) (s : State) : (failLaunch c e s).rnext = none := rfl
@[simp] theorem failLaunch_inp (c : BitVec 3) (e : ErrCode) (s : State) : (failLaunch c e s).inp = none := rfl
@[simp] theorem failLaunch_out (c : BitVec 3) (e : ErrCode) (s : State) : (failLaunch c e s).out = none := rfl
@[simp] theorem failLaunch_cap (c : BitVec 3) (e : ErrCode) (s : State) : (failLaunch c e s).cap = s.cap := rfl
@[simp] theorem failLaunch_host (c : BitVec 3) (e : ErrCode) (s : State) : (failLaunch c e s).host = s.host := rfl
@[simp] theorem failLaunch_replies (c : BitVec 3) (e : ErrCode) (s : State) : (failLaunch c e s).replies = s.replies := rfl

/-! Each field after a launch that starts. -/

@[simp] theorem startOperation_op (o : Operation) (ph : Phase) (b : Buffer) (p n : Nat) (s : State) : (startOperation o ph b p n s).op = o.code := rfl
@[simp] theorem startOperation_st (o : Operation) (ph : Phase) (b : Buffer) (p n : Nat) (s : State) : (startOperation o ph b p n s).st = .busy := rfl
@[simp] theorem startOperation_errc (o : Operation) (ph : Phase) (b : Buffer) (p n : Nat) (s : State) : (startOperation o ph b p n s).errc = .noError := rfl
@[simp] theorem startOperation_ph (o : Operation) (ph : Phase) (b : Buffer) (p n : Nat) (s : State) : (startOperation o ph b p n s).ph = some ph := rfl
@[simp] theorem startOperation_rp (o : Operation) (ph : Phase) (b : Buffer) (p n : Nat) (s : State) : (startOperation o ph b p n s).rp = some p := rfl
@[simp] theorem startOperation_acc (o : Operation) (ph : Phase) (b : Buffer) (p n : Nat) (s : State) : (startOperation o ph b p n s).acc = some n := rfl
@[simp] theorem startOperation_val (o : Operation) (ph : Phase) (b : Buffer) (p n : Nat) (s : State) : (startOperation o ph b p n s).val = none := rfl
@[simp] theorem startOperation_rlen (o : Operation) (ph : Phase) (b : Buffer) (p n : Nat) (s : State) : (startOperation o ph b p n s).rlen = none := rfl
@[simp] theorem startOperation_rnext (o : Operation) (ph : Phase) (b : Buffer) (p n : Nat) (s : State) : (startOperation o ph b p n s).rnext = none := rfl
@[simp] theorem startOperation_inp (o : Operation) (ph : Phase) (b : Buffer) (p n : Nat) (s : State) : (startOperation o ph b p n s).inp = some b := rfl
@[simp] theorem startOperation_out (o : Operation) (ph : Phase) (b : Buffer) (p n : Nat) (s : State) : (startOperation o ph b p n s).out = some [] := rfl
@[simp] theorem startOperation_cap (o : Operation) (ph : Phase) (b : Buffer) (p n : Nat) (s : State) : (startOperation o ph b p n s).cap = s.cap := rfl
@[simp] theorem startOperation_host (o : Operation) (ph : Phase) (b : Buffer) (p n : Nat) (s : State) : (startOperation o ph b p n s).host = s.host := rfl
@[simp] theorem startOperation_replies (o : Operation) (ph : Phase) (b : Buffer) (p n : Nat) (s : State) : (startOperation o ph b p n s).replies = s.replies := rfl

/-! Each field after reset by the host. -/

@[simp] theorem hostReset_op (s : State) : (hostReset s).op = 0 := rfl
@[simp] theorem hostReset_st (s : State) : (hostReset s).st = .idle := rfl
@[simp] theorem hostReset_errc (s : State) : (hostReset s).errc = .noError := rfl
@[simp] theorem hostReset_ph (s : State) : (hostReset s).ph = none := rfl
@[simp] theorem hostReset_rp (s : State) : (hostReset s).rp = none := rfl
@[simp] theorem hostReset_acc (s : State) : (hostReset s).acc = none := rfl
@[simp] theorem hostReset_val (s : State) : (hostReset s).val = none := rfl
@[simp] theorem hostReset_rlen (s : State) : (hostReset s).rlen = none := rfl
@[simp] theorem hostReset_rnext (s : State) : (hostReset s).rnext = none := rfl
@[simp] theorem hostReset_inp (s : State) : (hostReset s).inp = none := rfl
@[simp] theorem hostReset_out (s : State) : (hostReset s).out = none := rfl
@[simp] theorem hostReset_cap (s : State) : (hostReset s).cap = s.cap := rfl
@[simp] theorem hostReset_host (s : State) : (hostReset s).host = s.host := rfl
@[simp] theorem hostReset_replies (s : State) : (hostReset s).replies = s.replies := rfl

/-! Each field after a reply. -/

@[simp] theorem record_op (r : Reply) (s : State) : (record r s).op = s.op := rfl
@[simp] theorem record_st (r : Reply) (s : State) : (record r s).st = s.st := rfl
@[simp] theorem record_errc (r : Reply) (s : State) : (record r s).errc = s.errc := rfl
@[simp] theorem record_ph (r : Reply) (s : State) : (record r s).ph = s.ph := rfl
@[simp] theorem record_rp (r : Reply) (s : State) : (record r s).rp = s.rp := rfl
@[simp] theorem record_acc (r : Reply) (s : State) : (record r s).acc = s.acc := rfl
@[simp] theorem record_val (r : Reply) (s : State) : (record r s).val = s.val := rfl
@[simp] theorem record_rlen (r : Reply) (s : State) : (record r s).rlen = s.rlen := rfl
@[simp] theorem record_rnext (r : Reply) (s : State) : (record r s).rnext = s.rnext := rfl
@[simp] theorem record_inp (r : Reply) (s : State) : (record r s).inp = s.inp := rfl
@[simp] theorem record_out (r : Reply) (s : State) : (record r s).out = s.out := rfl
@[simp] theorem record_cap (r : Reply) (s : State) : (record r s).cap = s.cap := rfl
@[simp] theorem record_host (r : Reply) (s : State) : (record r s).host = s.host := rfl
@[simp] theorem record_replies (r : Reply) (s : State) : (record r s).replies = s.replies ++ [r] := rfl

end Sys2Proof.Machine
end

