-- ==== Sys2Proof/Laws/Ops.lean ====
section
/-! SUPPORT. One lemma per shared operation that says everything it can answer, and one that says when it goes on. -/

namespace Sys2Proof.Machine

@[simp] theorem exceeds_none (n : Nat) : exceeds none n = false := rfl

@[simp] theorem exceeds_some (c n : Nat) : exceeds (some c) n = decide (c < n) := rfl

/-- Within `CAP` is kept by going down. -/
theorem exceeds_le {cap : Option Nat} {m n : Nat} (h : exceeds cap n = false) (hmn : m ≤ n) :
    exceeds cap m = false := by
  cases cap with
  | none => rfl
  | some c => simp only [exceeds_some, decide_eq_false_iff_not] at h ⊢; omega

@[simp] theorem exceeds_zero (cap : Option Nat) : exceeds cap 0 = false := by
  cases cap <;> simp

@[simp] theorem need_some {α : Type} (r : Reg) (a : α) (k : α → StepOutcome) : need r (some a) k = k a := rfl

@[simp] theorem need_none {α : Type} (r : Reg) (k : α → StepOutcome) :
    need r none k = .fault (.noValue r) := rfl

theorem need_eq_next {α : Type} {r : Reg} {x : Option α} {k : α → StepOutcome} {t : State} :
    need r x k = .next t ↔ ∃ a, x = some a ∧ k a = .next t := by
  cases x <;> simp

theorem append_of {s : State} {o : Buffer} (v : Byte) (k : State → StepOutcome) (ho : s.out = some o)
    (hc : exceeds s.cap (o.length + 1) = false) : append v s k = k { s with out := some (o ++ [v]) } := by
  simp [append, ho, hc]

theorem append_full {s : State} {o : Buffer} (v : Byte) (k : State → StepOutcome) (ho : s.out = some o)
    (hc : exceeds s.cap (o.length + 1) = true) : append v s k = .next (raise .capacityExceeded s) := by
  simp [append, ho, hc]

theorem append_eq_next {v : Byte} {s t : State} {k : State → StepOutcome} (h : append v s k = .next t) :
    ∃ o, s.out = some o ∧
      ((exceeds s.cap (o.length + 1) = true ∧ t = raise .capacityExceeded s) ∨
        (exceeds s.cap (o.length + 1) = false ∧ k { s with out := some (o ++ [v]) } = .next t)) := by
  obtain ⟨o, ho, h⟩ := need_eq_next.mp h
  refine ⟨o, ho, ?_⟩
  by_cases hc : exceeds s.cap (o.length + 1) = true
  · rw [if_pos hc] at h
    exact .inl ⟨hc, by injection h with h; exact h.symm⟩
  · rw [if_neg hc] at h
    exact .inr ⟨by simpa using hc, h⟩

theorem addAcc_of {s : State} {a n : Nat} (k : State → StepOutcome) (ha : s.acc = some a)
    (hc : exceeds s.cap (a + n) = false) : addAcc n s k = k { s with acc := some (a + n) } := by
  simp [addAcc, ha, hc]

theorem addAcc_full {s : State} {a n : Nat} (k : State → StepOutcome) (ha : s.acc = some a)
    (hc : exceeds s.cap (a + n) = true) : addAcc n s k = .next (raise .capacityExceeded s) := by
  simp [addAcc, ha, hc]

theorem addAcc_eq_next {n : Nat} {s t : State} {k : State → StepOutcome} (h : addAcc n s k = .next t) :
    ∃ a, s.acc = some a ∧
      ((exceeds s.cap (a + n) = true ∧ t = raise .capacityExceeded s) ∨
        (exceeds s.cap (a + n) = false ∧ k { s with acc := some (a + n) } = .next t)) := by
  obtain ⟨a, ha, h⟩ := need_eq_next.mp h
  refine ⟨a, ha, ?_⟩
  by_cases hc : exceeds s.cap (a + n) = true
  · rw [if_pos hc] at h
    exact .inl ⟨hc, by injection h with h; exact h.symm⟩
  · rw [if_neg hc] at h
    exact .inr ⟨by simpa using hc, h⟩

theorem advance_of {s : State} {p : Nat} (k : State → StepOutcome) (hp : s.rp = some p) :
    advance s k = k { s with rp := some (p + 1) } := by
  simp [advance, hp]

theorem advance_eq_next {s t : State} {k : State → StepOutcome} (h : advance s k = .next t) :
    ∃ p, s.rp = some p ∧ k { s with rp := some (p + 1) } = .next t := need_eq_next.mp h

/-- A launch always answers a next state, and it is one of these four. -/
theorem launch_cases (o : Operation) (sizes : List Nat) (bad : Option ErrCode) (ph : Phase) (b : Buffer)
    (p n : Nat) (s : State) :
    (s.st = .busy ∧ launch o sizes bad ph b p n s = .next s) ∨
    (s.st ≠ .busy ∧ sizes.any (exceeds s.cap) = true ∧
      launch o sizes bad ph b p n s = .next (failLaunch o.code .capacityExceeded s)) ∨
    (s.st ≠ .busy ∧ sizes.any (exceeds s.cap) = false ∧
      ∃ e, bad = some e ∧ launch o sizes bad ph b p n s = .next (failLaunch o.code e s)) ∨
    (s.st ≠ .busy ∧ sizes.any (exceeds s.cap) = false ∧ bad = none ∧
      launch o sizes bad ph b p n s = .next (startOperation o ph b p n s)) := by
  by_cases hb : s.st = .busy
  · exact .inl ⟨hb, by simp [launch, hb]⟩
  · by_cases hc : sizes.any (exceeds s.cap) = true
    · exact .inr (.inl ⟨hb, hc, by unfold launch; rw [if_neg hb, if_pos hc]⟩)
    · refine .inr (.inr ?_)
      rw [Bool.not_eq_true] at hc
      cases bad with
      | none => exact .inr ⟨hb, hc, rfl, by unfold launch; rw [if_neg hb, hc]; rfl⟩
      | some e => exact .inl ⟨hb, hc, e, rfl, by unfold launch; rw [if_neg hb, hc]; rfl⟩

/-- `startRun` loads the first byte of the run. -/
theorem startRun_of {s : State} {b : Buffer} {p : Nat} {v : Byte} (hb : s.inp = some b) (hp : s.rp = some p)
    (hv : memRead b p = some v) :
    startRun s = .next { s with val := some v, acc := some 1, ph := some .count } := by
  simp [startRun, hb, hp, hv]

theorem startRun_eq_next {s t : State} (h : startRun s = .next t) :
    ∃ b p v, s.inp = some b ∧ s.rp = some p ∧ memRead b p = some v ∧
      t = { s with val := some v, acc := some 1, ph := some .count } := by
  obtain ⟨b, hb, h⟩ := need_eq_next.mp h
  obtain ⟨p, hp, h⟩ := need_eq_next.mp h
  cases hv : memRead b p with
  | none => simp [hv] at h
  | some v =>
    rw [hv] at h
    exact ⟨b, p, v, hb, hp, hv, by injection h with h; exact h.symm⟩

/-- A counting step goes on with an equal byte and ends the run otherwise. -/
theorem countRun_of {s : State} {b : Buffer} {p n : Nat} {v : Byte} (ended : Nat → Nat → Byte → StepOutcome)
    (hb : s.inp = some b) (hp : s.rp = some p) (hn : s.acc = some n) (hv : s.val = some v) :
    countRun s ended = if memRead b (p + n) = some v then addAcc 1 s .next else ended p n v := by
  simp [countRun, hb, hp, hn, hv]

theorem countRun_eq_next {s t : State} {ended : Nat → Nat → Byte → StepOutcome}
    (h : countRun s ended = .next t) :
    ∃ b p n v, s.inp = some b ∧ s.rp = some p ∧ s.acc = some n ∧ s.val = some v ∧
      ((memRead b (p + n) = some v ∧ addAcc 1 s .next = .next t) ∨
        (memRead b (p + n) ≠ some v ∧ ended p n v = .next t)) := by
  obtain ⟨b, hb, h⟩ := need_eq_next.mp h
  obtain ⟨p, hp, h⟩ := need_eq_next.mp h
  obtain ⟨n, hn, h⟩ := need_eq_next.mp h
  obtain ⟨v, hv, h⟩ := need_eq_next.mp h
  refine ⟨b, p, n, v, hb, hp, hn, hv, ?_⟩
  by_cases he : memRead b (p + n) = some v
  · rw [if_pos he] at h; exact .inl ⟨he, h⟩
  · rw [if_neg he] at h; exact .inr ⟨he, h⟩

/-- A length byte is a continuation byte while more than 127 remains, and the terminator otherwise. -/
theorem emitLength_of {s : State} {n : Nat} (last : State → StepOutcome) (hn : s.acc = some n) :
    emitLength s last =
      if overChunk n then append Config.contByte s fun t => .next { t with acc := some (n - Config.chunk) }
      else append (lengthByte n) s last := by
  simp [emitLength, hn]

theorem emitLength_eq_next {s t : State} {last : State → StepOutcome} (h : emitLength s last = .next t) :
    ∃ n, s.acc = some n ∧
      ((overChunk n = true ∧
          append Config.contByte s (fun u => .next { u with acc := some (n - Config.chunk) }) = .next t) ∨
        (overChunk n = false ∧ append (lengthByte n) s last = .next t)) := by
  obtain ⟨n, hn, h⟩ := need_eq_next.mp h
  refine ⟨n, hn, ?_⟩
  cases ho : overChunk n with
  | true => exact .inl ⟨rfl, by simpa [ho] using h⟩
  | false => exact .inr ⟨rfl, by simpa [ho] using h⟩

/-- Where the block reads bytes of the class, the meaning goes on. -/
theorem whileReading_of {mn : String} {ops : List Operation} {ph : Phase} {s : State} (k : StepOutcome)
    (h : readsByte ops ph s = true) : whileReading mn ops ph s k = k := if_pos h

/-- Elsewhere the byte is refused by name. -/
theorem whileReading_not {mn : String} {ops : List Operation} {ph : Phase} {s : State} (k : StepOutcome)
    (h : readsByte ops ph s = false) : whileReading mn ops ph s k = .refused (.byteNotRead mn) := by
  simp [whileReading, h]

theorem whileReading_eq_next {mn : String} {ops : List Operation} {ph : Phase} {s t : State} {k : StepOutcome}
    (h : whileReading mn ops ph s k = .next t) : readsByte ops ph s = true ∧ k = .next t := by
  cases hr : readsByte ops ph s with
  | true => exact ⟨rfl, by rwa [whileReading_of k hr] at h⟩
  | false => rw [whileReading_not k hr] at h; cases h

/-- When a stream byte is read: the block is busy with one of the operations, in the phase. -/
theorem readsByte_iff {ops : List Operation} {ph : Phase} {s : State} :
    readsByte ops ph s = true ↔ s.st = .busy ∧ (∃ o ∈ ops, o.code = s.op) ∧ s.ph = some ph := by
  simp [readsByte, and_assoc]

@[simp] theorem ofCode_code (o : Operation) : Operation.ofCode o.code = some o := by cases o <;> rfl

/-- A code with an operation is that operation's code. -/
theorem code_of_ofCode {c : BitVec 3} {o : Operation} (h : Operation.ofCode c = some o) : c = o.code := by
  revert c; cases o <;> decide

theorem code_injective {o q : Operation} (h : o.code = q.code) : o = q := by
  have h' := congrArg Operation.ofCode h
  simpa using h'

end Sys2Proof.Machine
end

