-- ==== Sys2Proof/Laws/PerInstr.lean ====
section
/-! SUPPORT. The families of statements about all instructions, one lemma per constructor. -/

namespace Sys2Proof.Laws.TableMatch

/-- The row's `mask` in spec/opcode_table.json. -/
def rowMask : Instr → Nat
  | .scan _ _ => 0x7
  | .vlenc _ => 0x7
  | .vldec _ _ => 0x7
  | .encode _ => 0x7
  | .decode _ => 0x7
  | .lit _ => 0x80
  | .runtag _ => 0x80
  | .cont _ => 0x80
  | .term _ => 0x80

/-- The row's `match` in spec/opcode_table.json. -/
def rowMatch : Instr → Nat
  | .scan _ _ => 0x1
  | .vlenc _ => 0x2
  | .vldec _ _ => 0x3
  | .encode _ => 0x4
  | .decode _ => 0x5
  | .lit _ => 0x00
  | .runtag _ => 0x80
  | .cont _ => 0x80
  | .term _ => 0x00

/-- The bits of the encoded instruction, as the table numbers them. -/
def wordOf (i : Instr) : Nat :=
  match encodeInstr i with
  | .command c _ => c.toNat
  | .streamByte _ b => b.toNat

/-- The encoder writes the row's fixed bits. -/
def Statement (i : Instr) : Prop := wordOf i &&& rowMask i = rowMatch i

theorem scan (buf : Buffer) (start : Nat) : Statement (.scan buf start) := by simp [Statement, wordOf, encodeInstr, Operation.code, rowMask, rowMatch]

theorem vlenc (len : Nat) : Statement (.vlenc len) := by simp [Statement, wordOf, encodeInstr, Operation.code, rowMask, rowMatch]

theorem vldec (buf : Buffer) (pos : Nat) : Statement (.vldec buf pos) := by simp [Statement, wordOf, encodeInstr, Operation.code, rowMask, rowMatch]

theorem encode (buf : Buffer) : Statement (.encode buf) := by simp [Statement, wordOf, encodeInstr, Operation.code, rowMask, rowMatch]

theorem decode (buf : Buffer) : Statement (.decode buf) := by simp [Statement, wordOf, encodeInstr, Operation.code, rowMask, rowMatch]

theorem fieldByte_bit7 : ∀ v : Field, (Machine.fieldByte v).toNat &&& 0x80 = 0x00 := by decide

theorem markedByte_bit7 : ∀ v : Field, (Machine.markedByte v).toNat &&& 0x80 = 0x80 := by decide

theorem lit (v : Field) : Statement (.lit v) := fieldByte_bit7 v

theorem runtag (v : Field) : Statement (.runtag v) := markedByte_bit7 v

theorem cont (x : Field) : Statement (.cont x) := markedByte_bit7 x

theorem term (t : Field) : Statement (.term t) := fieldByte_bit7 t

end Sys2Proof.Laws.TableMatch
end

