-- ==== Sys2Proof/Laws/Step.lean ====
section
/-! SUPPORT. What a step can do, said once: by the host's next move, and by the step rule of a busy block. -/

namespace Sys2Proof.Machine

/-- What an action answers: `step` is the answer of the next action. -/
def answer (a : Action) : StepOutcome :=
  match a with
  | .run i t => exec i t
  | .move o => o

theorem step_eq_answer (s : State) : step s = answer (nextAction s) := by
  unfold step answer; cases nextAction s <;> rfl

@[simp] theorem answer_run (i : Instr) (s : State) : answer (.run i s) = exec i s := rfl

@[simp] theorem answer_move (o : StepOutcome) : answer (.move o) = o := rfl

/-! One lemma per move of the host. -/

theorem step_silent {s : State} (h : s.host = []) : step s = answer (blockAction s) := by
  rw [step_eq_answer]; simp [nextAction, h]

theorem step_pause {s : State} {rest : List HostMove} (h : s.host = .pause :: rest) :
    step s = answer (blockAction { s with host := rest }) := by
  rw [step_eq_answer]; simp [nextAction, h]

theorem step_reset {s : State} {rest : List HostMove} (h : s.host = .reset :: rest) :
    step s = .next (hostReset { s with host := rest }) := by
  rw [step_eq_answer]; simp [nextAction, h]

theorem step_launch {s : State} {c : BitVec 3} {o : Operands} {rest : List HostMove} {i : Instr}
    (h : s.host = .launch c o :: rest) (hi : decodeCommand c o = .ok i) :
    step s = exec i { s with host := rest } := by
  rw [step_eq_answer]; simp [nextAction, h, hi]

theorem step_launch_unassigned {s : State} {c : BitVec 3} {o : Operands} {rest : List HostMove} {e : DecodeError}
    (h : s.host = .launch c o :: rest) (he : decodeCommand c o = .error e) :
    step s = .next (launchUnassigned c { s with host := rest }) := by
  rw [step_eq_answer]; simp [nextAction, h, he]

theorem step_readStatus {s : State} {rest : List HostMove} (h : s.host = .readStatus :: rest) :
    step s = .next (record (readStatus s) { s with host := rest }) := by
  rw [step_eq_answer]; simp [nextAction, h]

theorem step_readResult {s : State} {rest : List HostMove} (h : s.host = .readResult :: rest) :
    step s = .next (record (readResult s) { s with host := rest }) := by
  rw [step_eq_answer]; simp [nextAction, h]

/-! The block's own step. -/

theorem blockAction_quiet {s : State} (h : s.st ≠ .busy) : blockAction s = .move (.next s) := by
  simp [blockAction, h]

theorem blockAction_busy {s : State} {o : Operation} {ph : Phase} (hb : s.st = .busy) (ho : s.op = o.code)
    (hp : s.ph = some ph) : blockAction s = stepRule o ph s := by
  simp [blockAction, hb, ho, hp]

/-- A block's step that answers a next state is a wait, or the rule of an operation in a phase. -/
theorem blockAction_eq_next {s t : State} (h : answer (blockAction s) = .next t) :
    (s.st ≠ .busy ∧ t = s) ∨
      ∃ o ph, s.st = .busy ∧ s.op = Operation.code o ∧ s.ph = some ph ∧ answer (stepRule o ph s) = .next t := by
  by_cases hb : s.st = .busy
  · refine .inr ?_
    unfold blockAction at h
    rw [if_pos hb] at h
    cases hp : s.ph with
    | none => rw [hp] at h; cases h
    | some ph =>
      rw [hp] at h
      cases ho : Operation.ofCode s.op with
      | none => rw [ho] at h; cases h
      | some o =>
        rw [ho] at h
        exact ⟨o, ph, hb, code_of_ofCode ho, rfl, h⟩
  · rw [blockAction_quiet hb] at h
    exact .inl ⟨hb, by injection h with h; exact h.symm⟩

/-- The byte at `RP` decides what is run. -/
theorem fetchByte_of {ph : Phase} {s : State} {b : Buffer} {p : Nat} {x : Byte} {i : Instr} (atEnd : StepOutcome)
    (hb : s.inp = some b) (hp : s.rp = some p) (hx : memRead b p = some x) (hi : decodeByte ph x = .ok i) :
    fetchByte ph s atEnd = .run i s := by
  simp [fetchByte, hb, hp, hx, hi]

theorem fetchByte_end {ph : Phase} {s : State} {b : Buffer} {p : Nat} (atEnd : StepOutcome)
    (hb : s.inp = some b) (hp : s.rp = some p) (hx : memRead b p = none) : fetchByte ph s atEnd = .move atEnd := by
  simp [fetchByte, hb, hp, hx]

/-- A step that reads a stream byte comes to the end of the input or runs the byte's instruction. -/
theorem fetchByte_eq_next {ph : Phase} {s t : State} {atEnd : StepOutcome}
    (h : answer (fetchByte ph s atEnd) = .next t) :
    ∃ b p, s.inp = some b ∧ s.rp = some p ∧
      ((memRead b p = none ∧ atEnd = .next t) ∨
        ∃ x i, memRead b p = some x ∧ decodeByte ph x = .ok i ∧ exec i s = .next t) := by
  unfold fetchByte at h
  cases hb : s.inp with
  | none => rw [hb] at h; cases h
  | some b =>
    cases hp : s.rp with
    | none => rw [hb, hp] at h; cases h
    | some p =>
      rw [hb, hp] at h
      refine ⟨b, p, rfl, rfl, ?_⟩
      cases hx : memRead b p with
      | none => simp only [hx] at h; exact .inl ⟨rfl, h⟩
      | some x =>
        simp only [hx] at h
        cases hi : decodeByte ph x with
        | error e => simp only [hi] at h; cases h
        | ok i => simp only [hi] at h; exact .inr ⟨x, i, rfl, hi, h⟩

/-- The instruction of a byte read in phase `HEAD`. -/
theorem decodeByte_head (x : Byte) :
    decodeByte .head x = .ok (if highBit x then .runtag (lowField x) else .lit (lowField x)) := rfl

/-- The instruction of a byte read in phase `LEN`. -/
theorem decodeByte_len (x : Byte) :
    decodeByte .len x = .ok (if highBit x then .cont (lowField x) else .term (lowField x)) := rfl

/-- Everything a step that answers a next state can be. -/
theorem step_eq_next {s t : State} (h : step s = .next t) :
    (∃ u, (s.host = [] ∧ u = s ∨ ∃ rest, s.host = .pause :: rest ∧ u = { s with host := rest }) ∧
        answer (blockAction u) = .next t) ∨
      (∃ rest, s.host = .reset :: rest ∧ t = hostReset { s with host := rest }) ∨
      (∃ c o rest i, s.host = .launch c o :: rest ∧ decodeCommand c o = .ok i ∧
        exec i { s with host := rest } = .next t) ∨
      (∃ c o rest e, s.host = .launch c o :: rest ∧ decodeCommand c o = .error e ∧
        t = launchUnassigned c { s with host := rest }) ∨
      (∃ rest, s.host = .readStatus :: rest ∧ t = record (readStatus s) { s with host := rest }) ∨
      (∃ rest, s.host = .readResult :: rest ∧ t = record (readResult s) { s with host := rest }) := by
  cases hh : s.host with
  | nil => exact .inl ⟨s, .inl ⟨rfl, rfl⟩, by rwa [step_silent hh] at h⟩
  | cons m rest =>
    cases m with
    | pause => exact .inl ⟨_, .inr ⟨rest, rfl, rfl⟩, by rwa [step_pause hh] at h⟩
    | reset =>
      rw [step_reset hh] at h
      exact .inr (.inl ⟨rest, rfl, by injection h with h; exact h.symm⟩)
    | launch c o =>
      cases hd : decodeCommand c o with
      | ok i => exact .inr (.inr (.inl ⟨c, o, rest, i, rfl, hd, by rwa [step_launch hh hd] at h⟩))
      | error e =>
        rw [step_launch_unassigned hh hd] at h
        exact .inr (.inr (.inr (.inl ⟨c, o, rest, e, rfl, hd, by injection h with h; exact h.symm⟩)))
    | readStatus =>
      rw [step_readStatus hh] at h
      exact .inr (.inr (.inr (.inr (.inl ⟨rest, rfl, by injection h with h; exact h.symm⟩))))
    | readResult =>
      rw [step_readResult hh] at h
      exact .inr (.inr (.inr (.inr (.inr ⟨rest, rfl, by injection h with h; exact h.symm⟩))))

/-- A decoded launch runs one of the five commands, with the code of its operation. -/
theorem decodeCommand_eq_ok {c : BitVec 3} {o : Operands} {i : Instr} (h : decodeCommand c o = .ok i) :
    (c = Operation.scan.code ∧ i = .scan o.buf o.num) ∨ (c = Operation.vlenc.code ∧ i = .vlenc o.num) ∨
      (c = Operation.vldec.code ∧ i = .vldec o.buf o.num) ∨ (c = Operation.encode.code ∧ i = .encode o.buf) ∨
      (c = Operation.decode.code ∧ i = .decode o.buf) := by
  unfold decodeCommand at h
  cases hc : Operation.ofCode c with
  | none => rw [hc] at h; cases h
  | some q =>
    have := code_of_ofCode hc
    subst this
    cases q <;> simp_all

end Sys2Proof.Machine
end

