-- ==== Sys2Proof/WellFormed.lean ====
section
/-! DEFINITION. The operand preconditions the spec states for an instruction. The machine runs an ill-formed
command too: its launch fails with the error the spec names (R104, R115). -/

namespace Sys2Proof

/-- `SCAN` requires `start < |buf|` (R101) and `VLENC` requires `L >= 1` (R112). Every other command accepts every
operand (R117, R135, R151), and a stream byte is well-formed by its seven-bit field (R79). -/
def Instr.wellFormed : Instr → Bool
  | .scan buf start => decide (start < buf.length)
  | .vlenc len => decide (1 ≤ len)
  | .vldec _ _ => true
  | .encode _ => true
  | .decode _ => true
  | .lit _ => true
  | .runtag _ => true
  | .cont _ => true
  | .term _ => true

end Sys2Proof
end

