-- ==== Sys2Proof/Tests/Slice0.lean ====
section
/-! SUPPORT. Tests of one step each, with results taken from the spec's vectors and traces, and for every
obligation with hypotheses a state that meets them, clause by clause. -/

namespace Sys2Proof.Tests

open Sys2Proof.Machine

/-- An operation in flight with a silent host. -/
def flight (o : Operation) (ph : Phase) (rp acc : Nat) (val : Option Byte) (inp out : Buffer) : State :=
  { State.reset with
    op := o.code, st := .busy, ph := some ph, rp := some rp, acc := some acc, val := val, inp := some inp,
    out := some out }

/-- The same block with a host that makes these moves. -/
def withHost (ms : List HostMove) (s : State) : State := { s with host := ms }

/-- The same block with a finite `CAP`. -/
def withCap (n : Nat) (s : State) : State := { s with cap := some n }

/-- Part of the next state. -/
def got {α : Type} (o : StepOutcome) (f : State → α) : Option α :=
  match o with
  | .next t => some (f t)
  | .fault _ => none
  | .refused _ => none

/-! The words of the encodings, written out bit by bit (30_encoding.md R72, R73, R88). -/

theorem test_decode_scan : decodeCommand 0b001 ⟨[5], 0⟩ = .ok (.scan [5] 0) := rfl
theorem test_decode_vlenc : decodeCommand 0b010 ⟨[], 9⟩ = .ok (.vlenc 9) := rfl
theorem test_decode_vldec : decodeCommand 0b011 ⟨[5], 0⟩ = .ok (.vldec [5] 0) := rfl
theorem test_decode_encode : decodeCommand 0b100 ⟨[5], 0⟩ = .ok (.encode [5]) := rfl
theorem test_decode_decode : decodeCommand 0b101 ⟨[5], 0⟩ = .ok (.decode [5]) := rfl
theorem test_decode_unassigned :
    decodeCommand 0b000 ⟨[], 0⟩ = .error (.unassignedCode 0) ∧
      decodeCommand 0b110 ⟨[], 0⟩ = .error (.unassignedCode 6) ∧
      decodeCommand 0b111 ⟨[], 0⟩ = .error (.unassignedCode 7) := ⟨rfl, rfl, rfl⟩
theorem test_decode_lit : decodeByte .head 0b01110100 = .ok (.lit 0x74) := rfl
theorem test_decode_runtag : decodeByte .head 0b10000100 = .ok (.runtag 0x04) := rfl
theorem test_decode_cont : decodeByte .len 0b11111111 = .ok (.cont 0x7F) := rfl
theorem test_decode_term : decodeByte .len 0b00101110 = .ok (.term 46) := rfl
theorem test_encode_words :
    encodeInstr (.scan [5] 0) = .command 0b001 ⟨[5], 0⟩ ∧ encodeInstr (.vlenc 9) = .command 0b010 ⟨[], 9⟩ ∧
      encodeInstr (.vldec [5] 1) = .command 0b011 ⟨[5], 1⟩ ∧ encodeInstr (.encode [5]) = .command 0b100 ⟨[5], 0⟩ ∧
      encodeInstr (.decode [5]) = .command 0b101 ⟨[5], 0⟩ ∧
      encodeInstr (.lit 0x74) = .streamByte .head 0b01110100 ∧
      encodeInstr (.runtag 0x04) = .streamByte .head 0b10000100 ∧
      encodeInstr (.cont 0x7F) = .streamByte .len 0b11111111 ∧
      encodeInstr (.term 46) = .streamByte .len 0b00101110 := by decide

/-- The stream of 95_test_vectors.md P6: `LIT 0x41; TAG 0x41; CONT`. -/
theorem test_decode_stream_p6 : decodeStream .head [0x41, 0xC1, 0xFF] = [.lit 0x41, .runtag 0x41, .cont 0x7F] := by
  decide

/-- P6's stream in the notation of R90, and `RUN 0x41, 300` by R76. -/
theorem test_stream_items :
    [StreamItem.lit 0x41, .tag 0x41, .cont].flatMap itemBytes = [0x41, 0xC1, 0xFF] ∧
      itemBytes (.run 0x41 300) = [0xC1, 0xFF, 0xFF, 0x2E] := by decide

/-! The check of WellFormed: one ill-formed term for each precondition, and well-formed neighbours. -/

theorem test_ill_formed_scan : Instr.wellFormed (.scan [5, 5] 2) = false := by decide
theorem test_ill_formed_vlenc : Instr.wellFormed (.vlenc 0) = false := by decide
theorem test_well_formed : Instr.wellFormed (.scan [5, 5] 1) = true ∧ Instr.wellFormed (.vlenc 1) = true := by decide

/-! One step each, from the traces and vectors of 95_test_vectors.md. -/

/-- P4 (a), step 1. -/
theorem test_scan_head :
    got (step (flight .scan .head 2 0 none [3, 0x74, 4, 4, 4, 0x35, 0x35] [])) (fun t => (t.ph, t.acc, t.val)) =
      some (some .count, some 1, some 4) := by decide

/-- P4 (a), step 4. -/
theorem test_scan_count_ends :
    got (step (flight .scan .count 2 3 (some 4) [3, 0x74, 4, 4, 4, 0x35, 0x35] [])) (fun t => (t.st, t.rlen, t.rp)) =
      some (.done, some 3, some 2) := by decide

/-- X16: `start = 9` on two bytes. -/
theorem test_scan_launch_out_of_range :
    got (exec (.scan [0x41, 0x41] 9) State.reset) (fun t => (t.st, t.errc, t.op)) = some (.err, .scanRange, 1) := by
  decide

/-- X15: with `CAP = 4` the capacity test comes first. -/
theorem test_scan_launch_over_capacity :
    got (exec (.scan [0x41, 0x41] 9) (withCap 4 State.reset)) State.errc = some .capacityExceeded := by decide

/-- P4 (b), step 1: 300 to 173. -/
theorem test_vlenc_continuation :
    got (step (flight .vlenc .len 0 300 none [] [])) (fun t => (t.out, t.acc)) =
      some (some [0xFF], some 173) := by decide

/-- P4 (b), step 3, and the boundary 127 of V3. -/
theorem test_vlenc_terminator :
    got (step (flight .vlenc .len 0 46 none [] [0xFF, 0xFF])) (fun t => (t.st, t.out)) =
        some (.done, some [0xFF, 0xFF, 0x2E]) ∧
      got (step (flight .vlenc .len 0 127 none [] [])) (fun t => (t.st, t.out)) = some (.done, some [0x7F]) := by
  decide

/-- P4 (c), last step. -/
theorem test_vldec_terminator :
    got (step (flight .vldec .len 3 254 none [0xC1, 0xFF, 0xFF, 0x2E, 0x42] []))
        (fun t => (t.st, t.rlen, t.rnext, t.rp)) = some (.done, some 300, some 4, some 4) := by decide

/-- VD5: `pos` beyond the end. -/
theorem test_vldec_beyond_the_end :
    got (step (flight .vldec .len 7 0 none [5] [])) (fun t => (t.st, t.errc, t.rlen)) =
      some (.err, .malformedStream, none) := by decide

/-- P3, step 3: a run of 2 writes its tag and moves `RP` by 2. -/
theorem test_encode_tag :
    got (step (flight .encode .count 0 2 (some 0x41) [0x41, 0x41, 0x90, 0x42] []))
        (fun t => (t.ph, t.rp, t.acc, t.out)) = some (some .len, some 2, some 2, some [0xC1]) := by decide

/-- P3, step 6: a single byte above 0x7F is a run record all the same. -/
theorem test_encode_high_byte :
    got (step (flight .encode .count 2 1 (some 0x90) [0x41, 0x41, 0x90, 0x42] [0xC1, 2]))
        (fun t => (t.ph, t.rp, t.out)) = some (some .len, some 3, some [0xC1, 2, 0x90]) := by decide

/-- P1, step 8: no copies left. -/
theorem test_decode_exp_ends :
    got (step (flight .decode .exp 4 0 (some 4) [3, 0x74, 0x84, 3, 0xB5, 2] [3, 0x74, 4, 4, 4]))
        (fun t => (t.ph, t.rp, t.out)) = some (some .head, some 4, some [3, 0x74, 4, 4, 4]) := by decide

/-- P6, step 4: the staged literal is discarded. -/
theorem test_decode_malformed :
    got (step (flight .decode .len 3 127 (some 0x41) [0x41, 0xC1, 0xFF] [0x41]))
        (fun t => (t.st, t.errc, t.op, t.out)) = some (.err, .malformedStream, 5, none) := by decide

/-- P1, step 2: the byte 0x74 at a record boundary. -/
theorem test_lit :
    got (exec (.lit 0x74) (flight .decode .head 1 0 none [3, 0x74] [3])) (fun t => (t.out, t.rp, t.ph)) =
      some (some [3, 0x74], some 2, some .head) := by decide

/-- X14: an append that would pass `CAP`. -/
theorem test_lit_over_capacity :
    got (exec (.lit 1) (withCap 1 (flight .decode .head 1 0 none [3, 1] [3]))) (fun t => (t.st, t.errc, t.out)) =
      some (.err, .capacityExceeded, none) := by decide

/-- R159: 0xFF at a record boundary sets `VAL = 0x7F`; `ACC` of an earlier run is cleared. -/
theorem test_runtag :
    got (exec (.runtag 0x7F) (flight .decode .head 0 46 none [0xFF] [])) (fun t => (t.val, t.acc, t.ph, t.out)) =
      some (some 0x7F, some 0, some .len, some []) := by decide

/-- P2, step 308: 0x80 as a continuation byte adds 127. -/
theorem test_cont_ignores_its_low_bits :
    got (step (flight .decode .len 1 0 (some 5) [0x85, 0x80, 0] [])) (fun t => (t.acc, t.rp, t.ph)) =
      some (some 127, some 2, some .len) := by decide

/-- X13: the second continuation byte with `CAP = 200`. -/
theorem test_cont_over_capacity :
    got (exec (.cont 0x7F) (withCap 200 (flight .decode .len 2 127 (some 0x41) [0xC1, 0xFF, 0xFF, 1] [])))
        (fun t => (t.st, t.errc)) = some (.err, .capacityExceeded) := by decide

/-- P2, step 309: terminator 0. -/
theorem test_term_zero :
    got (exec (.term 0) (flight .decode .len 2 127 (some 5) [0x85, 0x80, 0] [])) (fun t => (t.acc, t.rp, t.ph)) =
      some (some 127, some 3, some .exp) := by decide

/-! The host (95_test_vectors.md B.6) and the placing of a word. -/

/-- X5, after reset: code 7. -/
theorem test_launch_bad_op :
    got (step (withHost [.launch 7 ⟨[], 0⟩] State.reset)) (fun t => (t.st, t.errc, t.op)) =
      some (.err, .badOp, 7) := by decide

/-- X10: after `SCAN` the host gets `RLEN` only. X2: after reset there is no result. -/
theorem test_read_result :
    readResult { flight .scan .count 0 1 (some 5) [5] [] with st := .done, rlen := some 1 } =
        .result (.runLength 1) ∧
      readResult State.reset = .refused := by decide

theorem test_codes :
    (Status.code .idle, Status.code .busy, Status.code .done, Status.code .err) = (0, 1, 2, 3) ∧
      (ErrCode.code .noError, ErrCode.code .malformedStream, ErrCode.code .invalidInput, ErrCode.code .scanRange,
        ErrCode.code .lenRange, ErrCode.code .badOp, ErrCode.code .capacityExceeded) = (0, 1, 2, 3, 4, 5, 6) ∧
      (phaseCode .head, phaseCode .count, phaseCode .len, phaseCode .exp) = (0, 1, 2, 3) := by decide

theorem test_fetch_word_decode :
    decodeTableWord 8 5 = some (.decode []) ∧
      got (step (State.reset.withFetchWord 8 5)) (fun t => (t.st, t.op, t.inp)) = some (.busy, 5, some []) := by
  decide

theorem test_fetch_word_lit :
    decodeTableWord 8 0x74 = some (.lit 0x74) ∧
      got (step (State.reset.withFetchWord 8 0x74)) (fun t => (t.st, t.out)) = some (.busy, some [0x74]) := by decide

/-! The functions, on the spec's vectors. -/

/-- V1 and V2. -/
theorem test_functions_v1_v2 :
    encodeFn [3, 0x74, 4, 4, 4, 0x35, 0x35] = [3, 0x74, 0x84, 3, 0xB5, 2] ∧
      decodeFn [3, 0x74, 0x84, 3, 0xB5, 2] = some [3, 0x74, 4, 4, 4, 0x35, 0x35] := by decide

/-- EN21, EN26, DD21, DD20. -/
theorem test_functions_corner_cases :
    encodeFn [0x10, 0x10, 0x90, 0x90] = [0x90, 2, 0x90, 2] ∧
      encodeFn [0x80, 0x81, 0x82] = [0x80, 1, 0x81, 1, 0x82, 1] ∧
      decodeFn [0, 0x80, 0, 0] = some [0, 0] ∧ decodeFn [0x85, 3, 0x85] = none := by decide

/-- S4, S7, VE8, VE12, VD13, VD16, VD5. -/
theorem test_functions_units :
    scanFn [3, 0x74, 4, 4, 4, 0x35, 0x35] 3 = some 2 ∧ scanFn [3, 0x74, 4, 4, 4, 0x35, 0x35] 7 = none ∧
      vlencFn 254 = [0xFF, 0x7F] ∧ vlencFn 381 = [0xFF, 0xFF, 0x7F] ∧
      vldecFn [0x90, 0x7F] 0 = some (254, 2) ∧ vldecFn [0x84, 3, 0xB5, 2] 0 = some (130, 2) ∧
      vldecFn [5] 7 = none := by decide

/-! Witnesses: states that meet the hypotheses of the obligations, one for each clause. -/

theorem witness_EncodeOfDecodeIsTheStreamByte : decodeInstr (.streamByte .len 0x80) = .ok (.cont 0) := rfl

theorem witness_StreamBytesClassifiedByBit7AndPhase :
    (0x7F : Byte).toNat ≤ 0x7F ∧ 0x80 ≤ (0x80 : Byte).toNat := by decide

theorem witness_StepRunsTheDecodedInstruction_launch :
    (withHost [.launch 4 ⟨[5], 0⟩] State.reset).host = [.launch 4 ⟨[5], 0⟩] ∧
      decodeCommand 4 ⟨[5], 0⟩ = .ok (.encode [5]) := ⟨rfl, rfl⟩

theorem witness_StepRunsTheDecodedInstruction_byte :
    blockIn .decode .head (flight .decode .head 0 0 none [5] []) ∧ memRead [5] 0 = some 5 ∧
      (decodeByte .head 5).toOption = some (.lit 5) ∧
      blockIn .decode .len (flight .decode .len 1 0 none [0x85, 3] []) ∧ memRead [0x85, 3] 1 = some 3 ∧
      (decodeByte .len 3).toOption = some (.term 3) ∧
      blockIn .vldec .len (flight .vldec .len 0 0 none [0xFF] []) ∧ memRead [0xFF] 0 = some 0xFF ∧
      (decodeByte .len 0xFF).toOption = some (.cont 0x7F) := by decide

theorem witness_PauseGivesTheBlocksStep :
    (withHost [.pause] (flight .decode .exp 1 0 (some 5) [0x85] [])).host = [.pause] ∧
      (got (step (flight .decode .exp 1 0 (some 5) [0x85] [])) State.ph).isSome = true := by decide

theorem witness_QuiescentBlockWaits : State.reset.host = [] ∧ State.reset.st ≠ .busy := by decide

theorem witness_ResetGivesTheResetValues :
    (withHost [.reset, .readStatus] (flight .decode .head 0 0 none [5] [])).host = [.reset, .readStatus] := rfl

theorem witness_UnassignedCodeFailsWithBadOp :
    (withHost [.launch 0 ⟨[], 0⟩] State.reset).host = [.launch 0 ⟨[], 0⟩] ∧ (0 : BitVec 3) ∈ [0, 6, 7] ∧
      (7 : BitVec 3) ∈ [0, 6, 7] ∧ (6 : BitVec 3) ∈ [0, 6, 7] ∧ State.reset.st ≠ .busy ∧
      (1 : BitVec 3) ∉ [0, 6, 7] ∧ (5 : BitVec 3) ∉ [0, 6, 7] := by decide

theorem witness_LaunchWhileBusyChangesNothing :
    (withHost [.launch 4 ⟨[5], 0⟩] (flight .vlenc .len 0 1 none [] [])).st = .busy ∧
      (withHost [.launch 4 ⟨[5], 0⟩] (flight .vlenc .len 0 1 none [] [])).host = [.launch 4 ⟨[5], 0⟩] ∧
      isCommand (.encode [5]) = true := by decide

theorem witness_HostReadsGiveStatusAndResult :
    (withHost [.readStatus] State.reset).host = [.readStatus] ∧
      (withHost [.readResult] State.reset).host = [.readResult] ∧
      (withHost [.readResult] State.reset).st ≠ .done ∧
      (fun s : State => s.st = .done ∧ s.op = Operation.code .scan ∧ s.rlen = some 1)
        { flight .scan .count 0 1 (some 5) [5] [] with st := .done, rlen := some 1 } ∧
      (fun s : State => s.st = .done ∧ s.op = Operation.code .vldec ∧ s.rlen = some 3 ∧ s.rnext = some 1)
        { flight .vldec .len 1 3 none [3] [] with st := .done, rlen := some 3, rnext := some 1 } ∧
      (fun s : State => s.st = .done ∧ s.op = Operation.code .encode ∧ s.out = some [5])
        { flight .encode .head 1 1 (some 5) [5] [5] with st := .done } := by decide

theorem witness_LaunchStartsTheOperation :
    (withCap 1 State.reset).st ≠ .busy ∧ 0 < [(5 : Byte)].length ∧ within (some 1) [(5 : Byte)].length ∧
      within (some 1) 1 := by decide

theorem witness_PreconditionFailureAtLaunch :
    State.reset.st ≠ .busy ∧ [(5 : Byte)].length ≤ 1 ∧ within State.reset.cap [(5 : Byte)].length ∧
      within State.reset.cap 1 := by decide

theorem witness_OperandOverCapacityFailsTheLaunch :
    (withCap 1 State.reset).st ≠ .busy ∧ ¬ within (withCap 1 State.reset).cap [(5 : Byte), 6].length ∧
      ¬ within (withCap 1 State.reset).cap 2 := by decide

theorem witness_LitAppendsItsByte :
    (fun s : State => s.st = .busy ∧ s.op = Operation.code .decode ∧ s.ph = some .head ∧ s.rp = some 0 ∧
      s.out = some [] ∧ within s.cap 1) (withCap 1 (flight .decode .head 0 0 none [5] [])) := by decide

theorem witness_RuntagSetsUpTheRun :
    (fun s : State => s.st = .busy ∧ s.op = Operation.code .decode ∧ s.ph = some .head ∧ s.rp = some 0 ∧
      s.host = [] ∧ s.inp = some [0x80]) (flight .decode .head 0 0 none [0x80] []) := by decide

theorem witness_ContAdds127 :
    (fun s : State => s.st = .busy ∧ s.op ∈ [Operation.code .vldec, Operation.code .decode] ∧ s.ph = some .len ∧
      s.rp = some 0 ∧ s.acc = some 0 ∧ within s.cap 127) (withCap 127 (flight .vldec .len 0 0 none [0x80] [])) ∧
    (fun s : State => s.st = .busy ∧ s.op ∈ [Operation.code .vldec, Operation.code .decode] ∧ s.ph = some .len ∧
      s.rp = some 1 ∧ s.acc = some 0 ∧ ¬ within s.cap 127)
        (withCap 126 (flight .decode .len 1 0 (some 5) [0x85, 0x80] [])) := by decide

theorem witness_TermAddsItsValueAndEndsTheLength :
    (fun s : State => s.st = .busy ∧ s.ph = some .len ∧ s.rp = some 1 ∧ s.acc = some 0 ∧
      s.op = Operation.code .decode ∧ within s.cap 127)
        (withCap 127 (flight .decode .len 1 0 (some 5) [0x85, 0x7F] [])) ∧
    (fun s : State => s.st = .busy ∧ s.ph = some .len ∧ s.rp = some 0 ∧ s.acc = some 0 ∧
      s.op = Operation.code .vldec ∧ within s.cap 0) (withCap 1 (flight .vldec .len 0 0 none [0] [])) ∧
    (fun s : State => s.st = .busy ∧ s.ph = some .len ∧ s.rp = some 0 ∧ s.acc = some 0 ∧
      s.op ∈ [Operation.code .vldec, Operation.code .decode] ∧ ¬ within s.cap 2)
        (withCap 1 (flight .vldec .len 0 0 none [2] [])) := by decide

theorem witness_StreamByteNotReadIsRefused :
    ¬ (State.reset.st = .busy ∧ State.reset.op = Operation.code .decode ∧ State.reset.ph = some .head) ∧
      ¬ (State.reset.st = .busy ∧ State.reset.op ∈ [Operation.code .vldec, Operation.code .decode] ∧
        State.reset.ph = some .len) := by decide

theorem witness_StreamByteFrame :
    got (exec (.lit 5) (flight .decode .head 0 0 none [5] [7])) (fun t => (t.st, t.out)) =
        some (.busy, some [7, 5]) ∧
      got (exec (.runtag 5) (flight .decode .head 0 0 none [0x85] [])) State.st = some .busy ∧
      got (exec (.cont 0) (flight .vldec .len 0 0 none [0x80] [])) State.st = some .busy ∧
      got (exec (.term 1) (flight .decode .len 1 0 (some 5) [0x85, 1] [])) State.st = some .busy ∧
      got (exec (.term 1) (flight .vldec .len 0 0 none [1] [])) State.st = some .done := by decide

theorem witness_CommandsIgnoreTheBlocksHistory :
    isCommand (.decode [5]) = true ∧ State.reset.st ≠ .busy ∧
      (raise .malformedStream (flight .decode .len 1 0 none [0x85] [])).st ≠ .busy ∧
      State.reset.cap = (raise .malformedStream (flight .decode .len 1 0 none [0x85] [])).cap ∧
      (got (exec (.decode [5]) State.reset) State.st).isSome = true := by decide

theorem witness_ScanHeadStep :
    blockIn .scan .head (flight .scan .head 0 0 none [5] []) ∧ memRead [5] 0 = some 5 := by decide

theorem witness_ScanCountStep :
    blockIn .scan .count (flight .scan .count 0 1 (some 5) [5, 5] []) ∧ memRead [5, 5] (0 + 1) = some 5 ∧
      within (flight .scan .count 0 1 (some 5) [5, 5] []).cap 2 ∧
      blockIn .scan .count (flight .scan .count 0 2 (some 5) [5, 5] []) ∧ memRead [5, 5] (0 + 2) ≠ some 5 := by
  decide

theorem witness_VlencStep :
    blockIn .vlenc .len (withCap 128 (flight .vlenc .len 0 128 none [] [])) ∧ within (some 128) 1 ∧ 127 < 128 ∧
      blockIn .vlenc .len (flight .vlenc .len 0 127 none [] [0xFF]) ∧ within none 2 := by decide

theorem witness_VldecStep :
    blockIn .vldec .len (flight .vldec .len 1 0 none [5] []) ∧ [(5 : Byte)].length ≤ 1 ∧
      blockIn .vldec .len (withCap 127 (flight .vldec .len 0 0 none [0x80] [])) ∧ memRead [0x80] 0 = some 0x80 ∧
      within (some 127) (0 + 127) ∧ memRead [0x7F] 0 = some 0x7F ∧ (0x7F : Byte).toNat ≤ 0x7F ∧
      0x80 ≤ (0x80 : Byte).toNat := by decide

theorem witness_EncodeHeadStep :
    blockIn .encode .head (flight .encode .head 0 0 none [] []) ∧ ([] : Buffer).length ≤ 0 ∧
      blockIn .encode .head (flight .encode .head 0 0 none [0x90] []) ∧ memRead [0x90] 0 = some 0x90 := by decide

theorem witness_EncodeCountStep :
    blockIn .encode .count (flight .encode .count 0 1 (some 5) [5, 5] []) ∧ memRead [5, 5] (0 + 1) = some 5 ∧
      within none 2 ∧
      blockIn .encode .count (withCap 1 (flight .encode .count 0 1 (some 0x7F) [0x7F] [])) ∧
      memRead [0x7F] (0 + 1) ≠ some 0x7F ∧ within (some 1) 1 ∧ (1 = 1 ∧ (0x7F : Byte).toNat ≤ 0x7F) ∧
      blockIn .encode .count (withCap 1 (flight .encode .count 0 1 (some 0x80) [0x80] [])) ∧
      ¬ (1 = 1 ∧ (0x80 : Byte).toNat ≤ 0x7F) ∧ ¬ (2 = 1 ∧ (0x7F : Byte).toNat ≤ 0x7F) := by decide

theorem witness_EncodeLenStep :
    blockIn .encode .len (flight .encode .len 0 128 (some 5) [] [0x85]) ∧ 127 < 128 ∧
      blockIn .encode .len (withCap 2 (flight .encode .len 0 1 (some 5) [] [0x85])) ∧ within (some 2) 2 := by decide

theorem witness_DecodeHeadStep :
    blockIn .decode .head (flight .decode .head 0 0 none [] []) ∧ ([] : Buffer).length ≤ 0 ∧
      blockIn .decode .head (withCap 1 (flight .decode .head 0 0 none [0x7F] [])) ∧
      memRead [0x7F] 0 = some 0x7F ∧ within (some 1) 1 ∧ memRead [0x80] 0 = some 0x80 ∧
      (0x7F : Byte).toNat ≤ 0x7F ∧ 0x80 ≤ (0x80 : Byte).toNat := by decide

theorem witness_DecodeLenStep :
    blockIn .decode .len (flight .decode .len 1 0 (some 5) [0x85] []) ∧ [(0x85 : Byte)].length ≤ 1 ∧
      blockIn .decode .len (withCap 127 (flight .decode .len 1 0 (some 5) [0x85, 0x80] [])) ∧
      memRead [0x85, 0x80] 1 = some 0x80 ∧ within (some 127) (0 + 127) ∧ memRead [0x85, 0x7F] 1 = some 0x7F := by
  decide

/-- X14: room for some of the copies, and then for none. -/
theorem test_decode_exp_with_room_for_one :
    got (step (withCap 2 (flight .decode .exp 2 2 (some 5) [0x85, 2] [7]))) (fun t => (t.st, t.out, t.acc)) =
        some (.busy, some [7, 5], some 1) ∧
      got (step (withCap 2 (flight .decode .exp 2 1 (some 5) [0x85, 2] [7, 5]))) (fun t => (t.st, t.errc, t.out)) =
        some (.err, .capacityExceeded, none) := by decide

/-- The second clause has room for one copy and not for both. -/
theorem witness_DecodeExpStep :
    blockIn .decode .exp (withCap 1 (flight .decode .exp 2 0 (some 5) [0x85, 0] [5, 5])) ∧
      blockIn .decode .exp (withCap 2 (flight .decode .exp 2 2 (some 5) [0x85, 2] [7])) ∧ 1 ≤ 2 ∧
      within (some 2) (1 + 1) ∧ ¬ within (some 2) (1 + 2) ∧
      blockIn .decode .exp (withCap 2 (flight .decode .exp 2 2 (some 5) [0x85, 2] [])) ∧ within (some 2) (0 + 2) := by
  decide

theorem witness_AppendOverCapacityRaises :
    ¬ within (some 1) ([(5 : Byte)].length + 1) ∧
      blockIn .vlenc .len (withCap 1 (flight .vlenc .len 0 1 none [] [5])) ∧
      blockIn .encode .len (withCap 1 (flight .encode .len 0 128 (some 5) [] [5])) ∧
      blockIn .encode .count (withCap 1 (flight .encode .count 0 1 (some 5) [5] [5])) ∧
      memRead [5] (0 + 1) ≠ some 5 ∧
      blockIn .decode .head (withCap 1 (flight .decode .head 0 0 none [5] [5])) ∧ memRead [5] 0 = some 5 ∧
      blockIn .decode .exp (withCap 1 (flight .decode .exp 2 1 (some 5) [0x85, 2] [5])) := by decide

theorem witness_ErrorEntryLeavesOnlyTheCode :
    (flight .decode .len 1 0 (some 5) [0x85] [7]).st ≠ .err ∧
      got (step (flight .decode .len 1 0 (some 5) [0x85] [7])) State.st = some .err := by decide

theorem witness_BlockNeverWritesInputAndOnlyAppendsOutput :
    (flight .decode .head 0 0 none [5] [7]).host = [] ∧
      got (step (flight .decode .head 0 0 none [5] [7])) State.out = some (some [7, 5]) ∧
      got (step (flight .decode .len 1 0 (some 5) [0x85] [7])) State.out = some none := by decide

theorem witness_StepKeepsCapacityAndReplies :
    got (step (withHost [.readStatus] (withCap 4 State.reset))) (fun t => (t.cap, t.replies.length)) =
      some (some 4, 1) := by decide

theorem witness_MachineInv_busy : MachineInv (flight .decode .head 0 0 none [5] []) :=
  ⟨rfl, rfl, rfl, .decode, .head, 0, 0, [5], [], by decide, rfl, rfl, rfl, rfl, rfl, rfl, rfl, rfl, rfl,
    ⟨by decide, rfl⟩⟩

theorem witness_StepKeepsTheInvariant :
    MachineInv (flight .decode .head 0 0 none [5] []) ∧
      got (step (flight .decode .head 0 0 none [5] [])) State.rp = some (some 1) :=
  ⟨witness_MachineInv_busy, by decide⟩

theorem witness_StepFromTheInvariantAnswersANextState : MachineInv (flight .decode .head 0 0 none [5] []) :=
  witness_MachineInv_busy

theorem witness_EveryOperationEnds :
    MachineInv (flight .decode .head 0 0 none [5] []) ∧ (flight .decode .head 0 0 none [5] []).host = [] ∧
      (flight .decode .head 0 0 none [5] []).st = .busy :=
  ⟨witness_MachineInv_busy, rfl, rfl⟩

theorem witness_ScanRunsToItsResult :
    State.reset.st ≠ .busy ∧ State.reset.host = [] ∧ within State.reset.cap [(5 : Byte), 5].length ∧
      scanFn [5, 5] 0 = some 2 := by decide

theorem witness_VlencRunsToItsResult :
    (withCap 128 State.reset).st ≠ .busy ∧ (withCap 128 State.reset).host = [] ∧ 1 ≤ 128 ∧
      within (withCap 128 State.reset).cap 128 := by decide

theorem witness_VldecRunsToItsResult :
    (withCap 128 State.reset).st ≠ .busy ∧ (withCap 128 State.reset).host = [] ∧
      within (some 128) [(0xFF : Byte), 1].length ∧ within (some 128) 0 ∧
      vldecFn [0xFF, 1] 0 = some (128, 2) ∧ within (some 128) 128 ∧
      vldecFn [0xFF, 2] 0 = some (129, 2) ∧ ¬ within (some 128) 129 ∧
      vldecFn [5] 1 = none ∧ within (some 128) (127 * ([(5 : Byte)].length - 1)) ∧
      vldecFn [0xFF, 0xFF] 0 = none ∧ ¬ within (some 128) (127 * ([(0xFF : Byte), 0xFF].length - 0)) := by decide

theorem witness_EncodeRunsToItsResult :
    (withCap 4 State.reset).st ≠ .busy ∧ (withCap 4 State.reset).host = [] ∧
      within (withCap 4 State.reset).cap [(0x41 : Byte), 0x41, 0x90].length ∧
      within (withCap 4 State.reset).cap (encodeFn [0x41, 0x41, 0x90]).length := by decide

theorem witness_EncodeOverCapacityEndsInError :
    (withCap 3 State.reset).st ≠ .busy ∧ (withCap 3 State.reset).host = [] ∧
      within (withCap 3 State.reset).cap [(0x41 : Byte), 0x41, 0x90].length ∧
      ¬ within (withCap 3 State.reset).cap (encodeFn [0x41, 0x41, 0x90]).length := by decide

theorem witness_DecodeRunsToItsResult :
    (withCap 3 State.reset).st ≠ .busy ∧ (withCap 3 State.reset).host = [] ∧
      decodeFn (streamBytes [.run 5 [] 3]) = some [5, 5, 5] ∧
      within (withCap 3 State.reset).cap (streamBytes [.run 5 [] 3]).length ∧
      within (withCap 3 State.reset).cap [(5 : Byte), 5, 5].length ∧
      decodeFn [0x80] = none ∧ State.reset.cap = none := by decide

/-- X13 in small: the length of the run alone is over `CAP`, and one that fits takes the output over it. -/
theorem witness_DecodeOverCapacityEndsInError :
    (withCap 4 State.reset).st ≠ .busy ∧ (withCap 4 State.reset).host = [] ∧
      decodeFn [0x85, 5] = some [5, 5, 5, 5, 5] ∧ within (some 4) [(0x85 : Byte), 5].length ∧
      decodeFn [1, 1, 0x85, 3] = some [1, 1, 5, 5, 5] ∧ within (some 4) [(1 : Byte), 1, 0x85, 3].length ∧
      ¬ within (some 4) [(5 : Byte), 5, 5, 5, 5].length ∧
      [(1 : Byte), 0x85] = streamBytes [.literal 1] ++ markedByte 5 :: List.map markedByte [] ∧
      within (some 4) [(1 : Byte), 0x85].length ∧
      (within (some 4) ([Record.literal 1].flatMap recordOutput).length ∧
        within (some 4) (127 * ([] : List Field).length)) ∧
      [(0x85 : Byte), 0xFF] = streamBytes [] ++ markedByte 5 :: List.map markedByte [0x7F] ∧
      ¬ within (some 4) (127 * [(0x7F : Field)].length) := by decide

theorem witness_MachineRoundTripClearsBit7 :
    State.reset.st ≠ .busy ∧ State.reset.host = [] ∧ State.reset.cap = none := by decide

theorem witness_ScanIsTheGreatestRun : [(5 : Byte)].length ≤ 1 ∧ 0 < [(5 : Byte)].length := by decide

theorem witness_FunctionsMeetTheirRecursions :
    [(0x85 : Byte), 2, 7][0]? = some 0x85 ∧ scanFn [0x85, 2, 7] 0 = some 1 ∧ 0x80 ≤ (0x85 : Byte).toNat ∧
      vldecFn [0x85, 2, 7] (0 + 1) = some (2, 2) ∧ vldecFn [0x85] (0 + 1) = none ∧
      [(0x7F : Byte)][0]? = some 0x7F ∧ (0x7F : Byte).toNat ≤ 0x7F ∧ [(0x85 : Byte)].length ≤ 1 := by decide

theorem witness_VlencClosedForm_and_VldecUndoesVlenc : 1 ≤ 127 ∧ 1 ≤ 128 := by decide

theorem witness_DecodeOfRecordsIsTheirOutput : ¬ ∃ rs, [(0x80 : Byte)] = streamBytes rs := by
  have key : ∀ v : Field, (0x80 : Byte) ≠ fieldByte v := by decide
  rintro ⟨rs, h⟩
  cases rs with
  | nil => cases h
  | cons r rs =>
    cases r with
    | literal v => exact key v (by simpa [streamBytes, recordBytes] using congrArg List.head? h)
    | run v conts t =>
      have h1 := congrArg List.length h
      simp [streamBytes, recordBytes] at h1

theorem witness_EncodeOutputIsCanonicalAndBounded_and_EncoderImageOnSevenBitInputs :
    sevenBit [5, 5] = true ∧ encodeFn [5, 5] = [0x85, 2] := by decide

theorem witness_LiteralOnlyInputIsUnchanged :
    sevenBit [1, 0x7F] = true ∧ ∀ i x, [(1 : Byte), 0x7F][i]? = some x → [(1 : Byte), 0x7F][i + 1]? ≠ some x := by
  refine ⟨by decide, fun i x h => ?_⟩
  match i, h with
  | 0, h => cases h; decide
  | 1, h => cases h; decide
  | k + 2, h => simp at h

theorem witness_RunBoundaryLayout :
    1 ≤ 1 ∧ (1 = 1 ∧ (0x7F : Byte).toNat ≤ 0x7F) ∧ ¬ (1 = 1 ∧ (0x80 : Byte).toNat ≤ 0x7F) ∧
      ¬ (127 = 1 ∧ (0x41 : Byte).toNat ≤ 0x7F) := by decide

theorem witness_ConcatenationOfStreamsAndBuffers :
    wellFormedStream [0x85, 2] = true ∧ [(5 : Byte)].getLast? ≠ [(6 : Byte)].head? := by decide

end Sys2Proof.Tests
end

section
/-! The block and the host: one step of the block looks at nothing of the host's, and changes neither `CAP` nor
anything of the host's (00_scope.md R13, R14; log 2, log 3). Said once, as a congruence over the shared operations,
and used for the statements about `pause`, `CAP` and the record of the host's reads. -/

namespace Sys2Proof.Machine

/-- A change of the next state in an outcome; a fault or a refusal stays. -/
def mapNext (g : State → State) : StepOutcome → StepOutcome
  | .next t => .next (g t)
  | .fault r => .fault r
  | .refused r => .refused r

@[simp] theorem mapNext_next (g : State → State) (t : State) : mapNext g (.next t) = .next (g t) := rfl

/-- A meaning that is the block's alone: with the host of another state `u` of the same `CAP` it answers as before,
and its next state has the `CAP` and the host of `u`. With `u` the state itself this says that `CAP` and the host
are kept (`HostBlind.frame`). -/
def HostBlind (f : State → StepOutcome) : Prop :=
  ∀ s u : State, u.cap = s.cap → f (withBlockOf s u) = mapNext (withBlockOf · u) (f s)

/-- A meaning that is the block's alone keeps `CAP` and what belongs to the host. -/
theorem HostBlind.frame {f : State → StepOutcome} (hf : HostBlind f) {s t : State} (h : f s = .next t) :
    t.cap = s.cap ∧ t.host = s.host ∧ t.replies = s.replies := by
  have hs : f s = mapNext (withBlockOf · s) (f s) := hf s s rfl
  rw [h, mapNext_next] at hs
  injection hs with ht
  exact ⟨(congrArg State.cap ht).trans rfl, (congrArg State.host ht).trans rfl,
    (congrArg State.replies ht).trans rfl⟩

/-- Under another host the next state differs in the host alone. -/
theorem HostBlind.with_host {f : State → StepOutcome} (hf : HostBlind f) {s t : State} (h : f s = .next t)
    (rest : List HostMove) : f { s with host := rest } = .next { t with host := rest } := by
  obtain ⟨hcap, -, hreplies⟩ := hf.frame h
  calc f { s with host := rest }
      = mapNext (withBlockOf · { s with host := rest }) (f s) := hf s { s with host := rest } rfl
    _ = .next { t with host := rest } := by simp [h, withBlockOf, hcap, hreplies]

/-! The ways meanings are put together. -/

theorem hostBlind_next {g : State → State} (hg : ∀ s u, g (withBlockOf s u) = withBlockOf (g s) u) :
    HostBlind fun s => .next (g s) :=
  fun s u _ => congrArg _ (hg s u)

theorem hostBlind_fault (r : Fault) : HostBlind fun _ => .fault r := fun _ _ _ => rfl

theorem HostBlind.after {f : State → StepOutcome} (hf : HostBlind f) {g : State → State}
    (hg : ∀ s u, g (withBlockOf s u) = withBlockOf (g s) u) (hcap : ∀ s, (g s).cap = s.cap) :
    HostBlind fun s => f (g s) := by
  intro s u hu
  show f (g (withBlockOf s u)) = _
  rw [hg]
  exact hf (g s) u (hu.trans (hcap s).symm)

theorem hostBlind_ite {c : State → Prop} [∀ s, Decidable (c s)] {f g : State → StepOutcome}
    (hc : ∀ s u : State, u.cap = s.cap → (c (withBlockOf s u) ↔ c s)) (hf : HostBlind f) (hg : HostBlind g) :
    HostBlind fun s => if c s then f s else g s := by
  intro s u hu
  show (if c (withBlockOf s u) then f (withBlockOf s u) else g (withBlockOf s u)) =
    mapNext _ (if c s then f s else g s)
  by_cases h : c s
  · rw [if_pos ((hc s u hu).mpr h), if_pos h]; exact hf s u hu
  · rw [if_neg (mt (hc s u hu).mp h), if_neg h]; exact hg s u hu

theorem exceeds_withBlockOf {s u : State} (h : u.cap = s.cap) (n : Nat) :
    exceeds (withBlockOf s u).cap n = true ↔ exceeds s.cap n = true := by
  simp [withBlockOf, h]

theorem hostBlind_need {α : Type} {r : Reg} {get : State → Option α} {k : α → State → StepOutcome}
    (hget : ∀ s u, get (withBlockOf s u) = get s) (hk : ∀ a, HostBlind (k a)) :
    HostBlind fun s => need r (get s) fun a => k a s := by
  intro s u hu
  show need r (get (withBlockOf s u)) (fun a => k a (withBlockOf s u)) = mapNext _ (need r (get s) fun a => k a s)
  rw [hget]
  cases get s with
  | none => rfl
  | some a => exact hk a s u hu

/-! The shared operations. -/

theorem hostBlind_raise (e : ErrCode) : HostBlind fun s => .next (raise e s) := hostBlind_next fun _ _ => rfl

theorem hostBlind_append (v : Byte) {k : State → StepOutcome} (hk : HostBlind k) :
    HostBlind fun s => append v s k :=
  hostBlind_need (fun _ _ => rfl) fun o =>
    hostBlind_ite (fun _ _ hu => exceeds_withBlockOf hu (o.length + 1)) (hostBlind_raise _)
      (hk.after (fun _ _ => rfl) fun _ => rfl)

theorem hostBlind_addAcc (n : Nat) {k : State → StepOutcome} (hk : HostBlind k) :
    HostBlind fun s => addAcc n s k :=
  hostBlind_need (fun _ _ => rfl) fun a =>
    hostBlind_ite (fun _ _ hu => exceeds_withBlockOf hu (a + n)) (hostBlind_raise _)
      (hk.after (fun _ _ => rfl) fun _ => rfl)

theorem hostBlind_advance {k : State → StepOutcome} (hk : HostBlind k) : HostBlind fun s => advance s k :=
  hostBlind_need (fun _ _ => rfl) fun _ => hk.after (fun _ _ => rfl) fun _ => rfl

theorem hostBlind_launch (o : Operation) (sizes : List Nat) (bad : Option ErrCode) (ph : Phase) (b : Buffer)
    (p n : Nat) : HostBlind (launch o sizes bad ph b p n) := by
  refine hostBlind_ite (fun _ _ _ => Iff.rfl) (hostBlind_next fun _ _ => rfl)
    (hostBlind_ite (fun s u hu => ?_) (hostBlind_next fun _ _ => rfl) ?_)
  · simp [withBlockOf, hu]
  · cases bad <;> exact hostBlind_next fun _ _ => rfl

theorem hostBlind_startRun : HostBlind startRun := by
  refine hostBlind_need (fun _ _ => rfl) fun b => hostBlind_need (fun _ _ => rfl) fun p => ?_
  cases memRead b p with
  | none => exact hostBlind_fault _
  | some v => exact hostBlind_next fun _ _ => rfl

theorem hostBlind_countRun {ended : State → Nat → Nat → Byte → StepOutcome}
    (h : ∀ p n v, HostBlind fun s => ended s p n v) : HostBlind fun s => countRun s (ended s) :=
  hostBlind_need (fun _ _ => rfl) fun _ => hostBlind_need (fun _ _ => rfl) fun p =>
    hostBlind_need (fun _ _ => rfl) fun n => hostBlind_need (fun _ _ => rfl) fun v =>
      hostBlind_ite (fun _ _ _ => Iff.rfl) (hostBlind_addAcc 1 (hostBlind_next fun _ _ => rfl)) (h p n v)

theorem hostBlind_emitLength {last : State → StepOutcome} (h : HostBlind last) :
    HostBlind fun s => emitLength s last :=
  hostBlind_need (fun _ _ => rfl) fun _ =>
    hostBlind_ite (fun _ _ _ => Iff.rfl) (hostBlind_append _ (hostBlind_next fun _ _ => rfl))
      (hostBlind_append _ h)

theorem hostBlind_whileReading (mn : String) (ops : List Operation) (ph : Phase) {k : State → StepOutcome}
    (h : HostBlind k) : HostBlind fun s => whileReading mn ops ph s (k s) :=
  hostBlind_ite (fun _ _ _ => Iff.rfl) h fun _ _ _ => rfl

/-! The instructions, the step rules and the block's step. -/

theorem hostBlind_exec (i : Instr) : HostBlind (exec i) := by
  cases i with
  | scan buf start => exact hostBlind_launch .scan _ _ _ _ _ _
  | vlenc len => exact hostBlind_launch .vlenc _ _ _ _ _ _
  | vldec buf pos => exact hostBlind_launch .vldec [buf.length, pos] none .len buf pos 0
  | encode buf => exact hostBlind_launch .encode [buf.length] none .head buf 0 0
  | decode buf => exact hostBlind_launch .decode [buf.length] none .head buf 0 0
  | lit v =>
    exact hostBlind_whileReading _ _ _ (hostBlind_advance (hostBlind_append _ (hostBlind_next fun _ _ => rfl)))
  | runtag v => exact hostBlind_whileReading _ _ _ (hostBlind_advance (hostBlind_next fun _ _ => rfl))
  | cont x =>
    exact hostBlind_whileReading _ _ _ (hostBlind_advance (hostBlind_addAcc _ (hostBlind_next fun _ _ => rfl)))
  | term t =>
    exact hostBlind_whileReading _ _ _ (hostBlind_advance (hostBlind_addAcc _
      (hostBlind_ite (fun _ _ _ => Iff.rfl) (hostBlind_next fun _ _ => rfl) (hostBlind_next fun _ _ => rfl))))

/-- Reading a stream byte takes `IN` and `RP` from the block, and runs an instruction or the end's outcome. -/
theorem hostBlind_fetchByte (ph : Phase) {atEnd : State → StepOutcome} (h : HostBlind atEnd) :
    HostBlind fun s => answer (fetchByte ph s (atEnd s)) := by
  intro s u hu
  have hinp : (withBlockOf s u).inp = s.inp := rfl
  have hrp : (withBlockOf s u).rp = s.rp := rfl
  simp only [fetchByte, hinp, hrp]
  cases s.inp with
  | none => rfl
  | some b =>
    cases s.rp with
    | none => rfl
    | some p =>
      cases hx : memRead b p with
      | none => simpa only [hx, answer_move] using h s u hu
      | some x =>
        cases hi : decodeByte ph x with
        | error e => simp only [hx, hi]; rfl
        | ok i => simpa only [hx, hi, answer_run] using hostBlind_exec i s u hu

theorem hostBlind_encodeHead : HostBlind encodeHead :=
  hostBlind_need (fun _ _ => rfl) fun _ => hostBlind_need (fun _ _ => rfl) fun _ =>
    hostBlind_ite (fun _ _ _ => Iff.rfl) (hostBlind_next fun _ _ => rfl) hostBlind_startRun

theorem hostBlind_encodeCount : HostBlind encodeCount :=
  hostBlind_countRun fun _ _ _ => hostBlind_ite (fun _ _ _ => Iff.rfl)
    ((hostBlind_append _ (hostBlind_next fun _ _ => rfl)).after (fun _ _ => rfl) fun _ => rfl)
    ((hostBlind_append _ (hostBlind_next fun _ _ => rfl)).after (fun _ _ => rfl) fun _ => rfl)

theorem hostBlind_decodeExp : HostBlind decodeExp :=
  hostBlind_need (fun _ _ => rfl) fun _ =>
    hostBlind_ite (fun _ _ _ => Iff.rfl) (hostBlind_next fun _ _ => rfl)
      (hostBlind_need (fun _ _ => rfl) fun _ => hostBlind_append _ (hostBlind_next fun _ _ => rfl))

theorem hostBlind_stepRule (o : Operation) (ph : Phase) : HostBlind fun s => answer (stepRule o ph s) := by
  match o, ph with
  | .scan, .head => exact hostBlind_startRun
  | .scan, .count => exact hostBlind_countRun fun _ _ _ => hostBlind_next fun _ _ => rfl
  | .vlenc, .len => exact hostBlind_emitLength (hostBlind_next fun _ _ => rfl)
  | .vldec, .len => exact hostBlind_fetchByte .len (atEnd := vldecEnd) (hostBlind_raise _)
  | .encode, .head => exact hostBlind_encodeHead
  | .encode, .count => exact hostBlind_encodeCount
  | .encode, .len => exact hostBlind_emitLength (hostBlind_next fun _ _ => rfl)
  | .decode, .head => exact hostBlind_fetchByte .head (atEnd := decodeHeadEnd) (hostBlind_next fun _ _ => rfl)
  | .decode, .len => exact hostBlind_fetchByte .len (atEnd := decodeLenEnd) (hostBlind_raise _)
  | .decode, .exp => exact hostBlind_decodeExp
  | .scan, .len | .scan, .exp | .vlenc, .head | .vlenc, .count | .vlenc, .exp | .vldec, .head
  | .vldec, .count | .vldec, .exp | .encode, .exp | .decode, .count => exact fun _ _ _ => rfl

/-- The block's own step looks at nothing of the host's (R13). -/
theorem hostBlind_blockAction : HostBlind fun s => answer (blockAction s) := by
  intro s u hu
  have hst : (withBlockOf s u).st = s.st := rfl
  have hph : (withBlockOf s u).ph = s.ph := rfl
  have hop : (withBlockOf s u).op = s.op := rfl
  simp only [blockAction, hst, hph, hop]
  by_cases hb : s.st = .busy
  · simp only [if_pos hb]
    cases s.ph with
    | none => rfl
    | some ph =>
      cases ho : Operation.ofCode s.op with
      | none => rfl
      | some o => simpa only [ho] using hostBlind_stepRule o ph s u hu
  · simp only [if_neg hb]; rfl

/-- The launch of an unassigned code keeps `CAP` and what belongs to the host. -/
theorem hostBlind_launchUnassigned (c : BitVec 3) : HostBlind fun s => .next (launchUnassigned c s) := by
  refine hostBlind_next fun s u => ?_
  by_cases hb : s.st = .busy
  · rw [launchUnassigned, launchUnassigned, if_pos hb]; exact if_pos hb
  · rw [launchUnassigned, launchUnassigned, if_neg hb]; exact if_neg hb

/-! The two statements. -/

/-- Settles O7: a pause is the block's step, which is blind to the host's coming moves. -/
theorem pauseGivesTheBlocksStep : Obligations.PauseGivesTheBlocksStep := by
  intro s t rest hpause hsilent
  rw [step_silent rfl] at hsilent
  rw [step_pause hpause]
  exact hostBlind_blockAction.with_host hsilent rest

/-- Settles O36, by what a step can be: the block's step, a launch and a reset keep `CAP` and the record, and a
read of the host adds its reply. -/
theorem stepKeepsCapacityAndReplies : Obligations.StepKeepsCapacityAndReplies := by
  intro s t h
  obtain ⟨u, hu, h⟩ | ⟨rest, hh, rfl⟩ | ⟨c, o, rest, i, hh, hi, h⟩ | ⟨c, o, rest, e, hh, he, rfl⟩ |
    ⟨rest, hh, rfl⟩ | ⟨rest, hh, rfl⟩ := step_eq_next h
  · obtain ⟨hcap, -, hreplies⟩ := hostBlind_blockAction.frame h
    obtain ⟨-, rfl⟩ | ⟨rest, -, rfl⟩ := hu
    · exact ⟨hcap, .inl hreplies⟩
    · exact ⟨hcap, .inl hreplies⟩
  · exact ⟨rfl, .inl rfl⟩
  · obtain ⟨hcap, -, hreplies⟩ := (hostBlind_exec i).frame h
    exact ⟨hcap, .inl hreplies⟩
  · obtain ⟨hcap, -, hreplies⟩ := (hostBlind_launchUnassigned c).frame (s := { s with host := rest }) rfl
    exact ⟨hcap, .inl hreplies⟩
  · exact ⟨rfl, .inr ⟨.inl (by rw [hh]; rfl), _, rfl⟩⟩
  · exact ⟨rfl, .inr ⟨.inr (by rw [hh]; rfl), _, rfl⟩⟩

end Sys2Proof.Machine
end

section
/-! The five commands and the moves of the host (10_state.md R36, R38 to R43): each command is a launch, what a
launch answers on a busy block and on one that is ready, and what the host gets by its reads. -/

namespace Sys2Proof.Machine

/-! Each command is the launch of its operation, with its own operands and tests (R38). -/

theorem exec_scan (buf : Buffer) (start : Nat) (s : State) :
    exec (.scan buf start) s =
      launch .scan [buf.length, start] (if buf.length ≤ start then some .scanRange else none) .head buf start 0 s :=
  rfl

theorem exec_vlenc (len : Nat) (s : State) :
    exec (.vlenc len) s = launch .vlenc [len] (if len = 0 then some .lenRange else none) .len [] 0 len s := rfl

theorem exec_vldec (buf : Buffer) (pos : Nat) (s : State) :
    exec (.vldec buf pos) s = launch .vldec [buf.length, pos] none .len buf pos 0 s := rfl

theorem exec_encode (buf : Buffer) (s : State) :
    exec (.encode buf) s = launch .encode [buf.length] none .head buf 0 0 s := rfl

theorem exec_decode (buf : Buffer) (s : State) :
    exec (.decode buf) s = launch .decode [buf.length] none .head buf 0 0 s := rfl

/-- What holds of every launch holds of every command. -/
theorem exec_command {i : Instr} (hi : isCommand i = true) :
    ∃ o sizes bad ph b p n, exec i = launch o sizes bad ph b p n := by
  cases i with
  | scan buf start => exact ⟨_, _, _, _, _, _, _, funext (exec_scan buf start)⟩
  | vlenc len => exact ⟨_, _, _, _, _, _, _, funext (exec_vlenc len)⟩
  | vldec buf pos => exact ⟨_, _, _, _, _, _, _, funext (exec_vldec buf pos)⟩
  | encode buf => exact ⟨_, _, _, _, _, _, _, funext (exec_encode buf)⟩
  | decode buf => exact ⟨_, _, _, _, _, _, _, funext (exec_decode buf)⟩
  | lit | runtag | cont | term => cases hi

theorem isCommand_of_decodeCommand {c : BitVec 3} {o : Operands} {i : Instr} (h : decodeCommand c o = .ok i) :
    isCommand i = true := by
  obtain ⟨-, rfl⟩ | ⟨-, rfl⟩ | ⟨-, rfl⟩ | ⟨-, rfl⟩ | ⟨-, rfl⟩ := decodeCommand_eq_ok h <;> rfl

section
variable {o : Operation} {sizes : List Nat} {bad : Option ErrCode} {ph : Phase} {b : Buffer} {p n : Nat} {s : State}

/-! What a launch answers. -/

theorem launch_busy (hb : s.st = .busy) : launch o sizes bad ph b p n s = .next s := if_pos hb

theorem launch_overCapacity (hb : s.st ≠ .busy) (hc : sizes.any (exceeds s.cap) = true) :
    launch o sizes bad ph b p n s = .next (failLaunch o.code .capacityExceeded s) :=
  (if_neg hb).trans (if_pos hc)

theorem launch_bad {e : ErrCode} (hb : s.st ≠ .busy) (hc : sizes.any (exceeds s.cap) = false) :
    launch o sizes (some e) ph b p n s = .next (failLaunch o.code e s) :=
  (if_neg hb).trans (if_neg (Bool.not_eq_true _ ▸ hc))

theorem launch_starts (hb : s.st ≠ .busy) (hc : sizes.any (exceeds s.cap) = false) :
    launch o sizes none ph b p n s = .next (startOperation o ph b p n s) :=
  (if_neg hb).trans (if_neg (Bool.not_eq_true _ ▸ hc))

/-- A launch writes every register of the block from its own operands, so what an earlier operation left does not
matter (R41). -/
theorem launch_ignores_history {s' : State} (hb : s.st ≠ .busy) (hb' : s'.st ≠ .busy) (hcap : s.cap = s'.cap) :
    ∃ t, launch o sizes bad ph b p n s = .next t ∧ launch o sizes bad ph b p n s' = .next (withBlockOf t s') := by
  cases hc : sizes.any (exceeds s.cap) with
  | true => exact ⟨_, launch_overCapacity hb hc, launch_overCapacity hb' (hcap ▸ hc)⟩
  | false =>
    cases bad with
    | some e => exact ⟨_, launch_bad hb hc, launch_bad hb' (hcap ▸ hc)⟩
    | none => exact ⟨_, launch_starts hb hc, launch_starts hb' (hcap ▸ hc)⟩

end

theorem launchUnassigned_busy {c : BitVec 3} {s : State} (hb : s.st = .busy) : launchUnassigned c s = s := if_pos hb

theorem launchUnassigned_ready {c : BitVec 3} {s : State} (hb : s.st ≠ .busy) :
    launchUnassigned c s = failLaunch c .badOp s := if_neg hb

theorem exec_command_busy {i : Instr} {s : State} (hi : isCommand i = true) (hb : s.st = .busy) :
    exec i s = .next s := by
  obtain ⟨o, sizes, bad, ph, b, p, n, hl⟩ := exec_command hi
  rw [hl]; exact launch_busy hb

/-! What a read of the result gives (R40). -/

theorem readResult_not_done {s : State} (h : s.st ≠ .done) : readResult s = .refused := by
  unfold readResult
  cases hs : s.st with
  | done => exact absurd hs h
  | idle | busy | err => rfl

theorem readResult_scan {s : State} {n : Nat} (hs : s.st = .done) (ho : s.op = Operation.code .scan)
    (hn : s.rlen = some n) : readResult s = .result (.runLength n) := by
  simp only [readResult, hs, ho, ofCode_code, hn]

theorem readResult_vldec {s : State} {n p : Nat} (hs : s.st = .done) (ho : s.op = Operation.code .vldec)
    (hn : s.rlen = some n) (hp : s.rnext = some p) : readResult s = .result (.lengthAndNext n p) := by
  simp only [readResult, hs, ho, ofCode_code, hn, hp]

theorem readResult_output {s : State} {o : Operation} {b : Buffer} (hs : s.st = .done)
    (hmem : o ∈ [Operation.vlenc, .encode, .decode]) (ho : s.op = o.code) (hb : s.out = some b) :
    readResult s = .result (.output b) := by
  cases o with
  | scan | vldec => exact absurd hmem (by decide)
  | vlenc | encode | decode => simp only [readResult, hs, ho, ofCode_code, hb]

/-! The statements. -/

/-- Settles O6: a launch runs the command its code decodes to, and a busy block that reads a stream byte runs the
byte's instruction, in each of the three phases that read one. -/
theorem stepRunsTheDecodedInstruction : Obligations.StepRunsTheDecodedInstruction := by
  intro s
  refine ⟨fun c o rest i hh hi => step_launch hh hi, ?_⟩
  intro o ph b p x i ⟨hsilent, hbusy, hop, hph⟩ hmem hb hp hx hi
  rw [step_silent hsilent, blockAction_busy hbusy hop hph]
  have hfetch (atEnd : StepOutcome) : answer (fetchByte ph s atEnd) = exec i s := by
    rw [fetchByte_of atEnd hb hp hx hi, answer_run]
  simp only [List.mem_cons, Prod.mk.injEq, List.not_mem_nil, or_false] at hmem
  obtain ⟨rfl, rfl⟩ | ⟨rfl, rfl⟩ | ⟨rfl, rfl⟩ := hmem
  · exact hfetch (vldecEnd s)
  · exact hfetch (decodeHeadEnd s)
  · exact hfetch (decodeLenEnd s)

/-- Settles O8: a block that is not busy has no step of its own. -/
theorem quiescentBlockWaits : Obligations.QuiescentBlockWaits := by
  intro s hsilent hquiet
  rw [step_silent hsilent, blockAction_quiet hquiet, answer_move]

/-- Settles O9: the reset of the host gives the registers of `State.reset`, from which the block waits. -/
theorem resetGivesTheResetValues : Obligations.ResetGivesTheResetValues := by
  have hvalues (s : State) : noValues (hostReset s) := ⟨rfl, rfl, rfl, rfl, rfl, rfl, rfl, rfl⟩
  refine ⟨⟨rfl, rfl, rfl, hvalues State.reset⟩, fun s rest hh => ?_⟩
  exact ⟨_, step_reset hh, rfl, rfl, rfl, hvalues _, quiescentBlockWaits _ rfl nofun⟩

/-- Settles O11: while `BUSY` a launch answers the state it finds, assigned code or not. -/
theorem launchWhileBusyChangesNothing : Obligations.LaunchWhileBusyChangesNothing := by
  refine fun s hb => ⟨fun c o rest hh => ?_, fun i hi => exec_command_busy hi hb⟩
  cases hd : decodeCommand c o with
  | ok i => rw [step_launch hh hd]; exact exec_command_busy (isCommand_of_decodeCommand hd) hb
  | error e => exact (step_launch_unassigned hh hd).trans (congrArg _ (launchUnassigned_busy hb))

/-- Settles O12: the step of a read records what `readStatus` or `readResult` gives, and nothing else. -/
theorem hostReadsGiveStatusAndResult : Obligations.HostReadsGiveStatusAndResult := by
  refine fun s rest => ⟨fun hh => step_readStatus hh, fun hh => ?_⟩
  have hread {r : Reply} (hr : readResult s = r) :
      step s = .next { s with host := rest, replies := s.replies ++ [r] } := hr ▸ step_readResult hh
  exact ⟨fun hs => hread (readResult_not_done hs), fun hs =>
    ⟨fun n ho hn => hread (readResult_scan hs ho hn), fun n p ho hn hp => hread (readResult_vldec hs ho hn hp),
      fun o b hmem ho hb => hread (readResult_output hs hmem ho hb)⟩⟩

/-- Settles O13: operands within `CAP` that meet the precondition of the command pass all tests of the launch. -/
theorem launchStartsTheOperation : Obligations.LaunchStartsTheOperation := by
  refine fun s hb => ⟨fun buf start hlt hbuf => ?_, fun n hn hcap => ?_, fun buf pos hbuf hpos => ?_,
    fun buf hbuf => ?_, fun buf hbuf => ?_⟩
  · have hstart : within s.cap start := exceeds_le hbuf hlt.le
    rw [exec_scan, if_neg (Nat.not_le.mpr hlt)]
    exact launch_starts hb (by simp [hbuf, hstart])
  · rw [exec_vlenc, if_neg (Nat.one_le_iff_ne_zero.mp hn)]
    exact launch_starts hb (by simp [hcap])
  · exact launch_starts hb (by simp [hbuf, hpos])
  · exact launch_starts hb (by simp [hbuf])
  · exact launch_starts hb (by simp [hbuf])

/-- Settles O22: every command is a launch, which ignores the block's history; the frame is the case `s' = s`. -/
theorem commandsIgnoreTheBlocksHistory : Obligations.CommandsIgnoreTheBlocksHistory := by
  intro i s s' t hi hb hb' hcap h
  obtain ⟨o, sizes, bad, ph, b, p, n, hl⟩ := exec_command hi
  rw [hl] at h ⊢
  have hfrom (u : State) (hu : u.st ≠ .busy) (hc : s.cap = u.cap) :
      launch o sizes bad ph b p n u = .next (withBlockOf t u) := by
    obtain ⟨v, hv, hv'⟩ := launch_ignores_history hb hu hc
    rw [h] at hv
    injection hv with htv
    exact htv ▸ hv'
  have hself := hfrom s hb rfl
  rw [h] at hself
  injection hself with ht
  exact ⟨hfrom s' hb' hcap, ht⟩

end Sys2Proof.Machine
end

section
/-! The invariant of the machine (10_state.md R26, R30, R32, R36, R37; 60_exceptions.md R191, R197). From a state
that meets it every step answers a next state, and one that meets it: both are one claim about an outcome
(`AnswersInv`), shown once for each shared operation, then for each step rule, command and move of the host. -/

namespace Sys2Proof.Machine

/-- The outcome is a next state, and one that meets the invariant. -/
def AnswersInv (x : StepOutcome) : Prop := ∃ t, x = .next t ∧ MachineInv t

theorem answersInv_next {t : State} (h : MachineInv t) : AnswersInv (.next t) := ⟨t, rfl, h⟩

/-- What all busy states of the invariant have in common: the registers that are read hold these values, within
`CAP`, and there is neither a result nor an error. The bounds between the values are `inFlight`'s. -/
structure Flight (o : Operation) (ph : Phase) (rp acc : Nat) (inp out : Buffer) (s : State) : Prop where
  st_eq : s.st = .busy
  errc_eq : s.errc = .noError
  rlen_eq : s.rlen = none
  rnext_eq : s.rnext = none
  op_eq : s.op = o.code
  ph_eq : s.ph = some ph
  rp_eq : s.rp = some rp
  acc_eq : s.acc = some acc
  inp_eq : s.inp = some inp
  out_eq : s.out = some out
  inp_within : within s.cap inp.length
  out_within : within s.cap out.length
  rp_within : within s.cap rp
  acc_within : within s.cap acc

/-! The invariant by the status of the block. -/

theorem machineInv_of_idle {s : State} (hst : s.st = .idle) (h : s.errc = .noError ∧ s.op = 0 ∧ noValues s) :
    MachineInv s := by
  unfold MachineInv; rw [hst]; exact h

theorem machineInv_busy_iff {s : State} (hst : s.st = .busy) :
    MachineInv s ↔ ∃ o ph rp acc inp out, Flight o ph rp acc inp out s ∧ inFlight o ph rp acc s.val inp out := by
  unfold MachineInv
  rw [hst]
  constructor
  · rintro ⟨herrc, hrlen, hrnext, o, ph, rp, acc, inp, out, hop, hph, hrp, hacc, hinp, hout, wi, wo, wr, wa, hf⟩
    exact ⟨o, ph, rp, acc, inp, out,
      ⟨hst, herrc, hrlen, hrnext, hop, hph, hrp, hacc, hinp, hout, wi, wo, wr, wa⟩, hf⟩
  · rintro ⟨o, ph, rp, acc, inp, out, h, hf⟩
    exact ⟨h.errc_eq, h.rlen_eq, h.rnext_eq, o, ph, rp, acc, inp, out, h.op_eq, h.ph_eq, h.rp_eq, h.acc_eq,
      h.inp_eq, h.out_eq, h.inp_within, h.out_within, h.rp_within, h.acc_within, hf⟩

theorem machineInv_of_done {s : State} (hst : s.st = .done) (h : doneOk s) : MachineInv s := by
  unfold MachineInv; rw [hst]; exact h

/-- An error that fits the command code may be entered from every state (R197). -/
theorem machineInv_raise {e : ErrCode} {s : State} (h : errorFits e s.op s.cap) : MachineInv (raise e s) :=
  ⟨h, rfl, rfl, rfl, rfl, rfl, rfl, rfl, rfl⟩

/-- The invariant does not speak of the host's coming moves. -/
theorem machineInv_host {s : State} (rest : List HostMove) (h : MachineInv s) :
    MachineInv { s with host := rest } := h

/-- Nor of what the host has read. -/
theorem machineInv_record {s : State} (r : Reply) (h : MachineInv s) : MachineInv (record r s) := h

/-- Only a finite `CAP` is exceeded, so the error fits every assigned code (R196). -/
theorem errorFits_capacityExceeded {cap : Option Nat} {n : Nat} (o : Operation) (h : exceeds cap n = true) :
    errorFits .capacityExceeded o.code cap := by
  refine ⟨?_, by rw [ofCode_code]; rfl⟩
  cases cap with
  | none => cases h
  | some c => rfl

section
variable {o : Operation} {ph : Phase} {rp acc : Nat} {inp out : Buffer} {s : State}

/-! The rules of the operation in flight: how it goes on, how it fails, how it ends. -/

theorem Flight.answers (h : Flight o ph rp acc inp out s) (hf : inFlight o ph rp acc s.val inp out) :
    AnswersInv (.next s) :=
  answersInv_next ((machineInv_busy_iff h.st_eq).mpr ⟨o, ph, rp, acc, inp, out, h, hf⟩)

theorem Flight.answers_capacityExceeded {n : Nat} (h : Flight o ph rp acc inp out s)
    (hn : exceeds s.cap n = true) : AnswersInv (.next (raise .capacityExceeded s)) :=
  answersInv_next (machineInv_raise (h.op_eq ▸ errorFits_capacityExceeded o hn))

theorem Flight.answers_malformedStream (h : Flight o ph rp acc inp out s) (ho : o = .vldec ∨ o = .decode) :
    AnswersInv (.next (raise .malformedStream s)) :=
  answersInv_next (machineInv_raise (ho.imp (h.op_eq ▸ congrArg _) (h.op_eq ▸ congrArg _)))

/-- The operations whose result is `OUT` are done with the output staged so far (R11, R32). -/
theorem Flight.answers_finish (h : Flight o ph rp acc inp out s) (ho : o ∈ [Operation.vlenc, .encode, .decode]) :
    AnswersInv (.next (finish s)) := by
  refine answersInv_next (machineInv_of_done rfl ⟨h.errc_eq, .inr (.inr ⟨?_, ?_, h.rlen_eq, h.rnext_eq⟩)⟩)
  · rw [finish_op, h.op_eq]
    exact List.mem_map_of_mem (f := Operation.code) ho
  · rw [finish_out, h.out_eq]; rfl

/-- An append leads on to the operation with the longer output, or fails (R56, R196). -/
theorem Flight.answers_append {v : Byte} {k : State → StepOutcome} (h : Flight o ph rp acc inp out s)
    (hk : Flight o ph rp acc inp (out ++ [v]) { s with out := some (out ++ [v]) } →
      AnswersInv (k { s with out := some (out ++ [v]) })) : AnswersInv (append v s k) := by
  cases hc : exceeds s.cap (out.length + 1) with
  | true => rw [append_full v k h.out_eq hc]; exact h.answers_capacityExceeded hc
  | false =>
    rw [append_of v k h.out_eq hc]
    exact hk { h with out_eq := rfl, out_within := by simpa using hc }

/-- Adding to `ACC` leads on to the operation with the greater count, or fails (R196). -/
theorem Flight.answers_addAcc {n : Nat} {k : State → StepOutcome} (h : Flight o ph rp acc inp out s)
    (hk : Flight o ph rp (acc + n) inp out { s with acc := some (acc + n) } →
      AnswersInv (k { s with acc := some (acc + n) })) : AnswersInv (addAcc n s k) := by
  cases hc : exceeds s.cap (acc + n) with
  | true => rw [addAcc_full k h.acc_eq hc]; exact h.answers_capacityExceeded hc
  | false => rw [addAcc_of k h.acc_eq hc]; exact hk { h with acc_eq := rfl, acc_within := hc }

/-- A read position within `IN` is within `CAP`. -/
theorem Flight.at_rp {p : Nat} (h : Flight o ph rp acc inp out s) (hp : p ≤ inp.length) :
    Flight o ph p acc inp out { s with rp := some p } :=
  { h with rp_eq := rfl, rp_within := exceeds_le h.inp_within hp }

theorem Flight.at_phase (h : Flight o ph rp acc inp out s) (ph' : Phase) :
    Flight o ph' rp acc inp out { s with ph := some ph' } := { h with ph_eq := rfl }

theorem Flight.with_less_acc {n : Nat} (h : Flight o ph rp acc inp out s) (hn : n ≤ acc) :
    Flight o ph rp n inp out { s with acc := some n } :=
  { h with acc_eq := rfl, acc_within := exceeds_le h.acc_within hn }

/-- The position after a byte that was read. -/
theorem Flight.answers_advance {k : State → StepOutcome} (h : Flight o ph rp acc inp out s)
    (hrp : rp < inp.length)
    (hk : Flight o ph (rp + 1) acc inp out { s with rp := some (rp + 1) } →
      AnswersInv (k { s with rp := some (rp + 1) })) : AnswersInv (advance s k) := by
  rw [advance_of k h.rp_eq]; exact hk (h.at_rp hrp)

/-! The shared step rules. -/

theorem lt_length_of_memRead {b : Buffer} {a : Nat} {v : Byte} (h : memRead b a = some v) : a < b.length := by
  rw [← Nat.not_le, ← memRead_none_iff, h]; exact Option.some_ne_none v

theorem exists_memRead_of_lt {b : Buffer} {a : Nat} (h : a < b.length) : ∃ v, memRead b a = some v :=
  ⟨b[a], List.getElem?_eq_getElem h⟩

/-- The first byte of a run starts the count at 1 (R102, R137). -/
theorem Flight.answers_startRun (h : Flight o ph rp acc inp out s) (hrp : rp < inp.length)
    (hf : ∀ v, inFlight o .count rp 1 (some v) inp out) : AnswersInv (startRun s) := by
  obtain ⟨v, hv⟩ := exists_memRead_of_lt hrp
  rw [startRun_of h.inp_eq h.rp_eq hv]
  exact Flight.answers (o := o)
    { h with ph_eq := rfl, acc_eq := rfl, acc_within := exceeds_le h.inp_within (by omega) } (hf v)

/-- A counting step counts one more byte of `IN`, or ends the run (R103, R138). -/
theorem Flight.answers_countRun {ended : Nat → Nat → Byte → StepOutcome} {v : Byte}
    (h : Flight o .count rp acc inp out s) (hval : s.val = some v)
    (hf : rp + (acc + 1) ≤ inp.length → inFlight o .count rp (acc + 1) (some v) inp out)
    (hended : AnswersInv (ended rp acc v)) : AnswersInv (countRun s ended) := by
  rw [countRun_of ended h.inp_eq h.rp_eq h.acc_eq hval]
  by_cases hv : memRead inp (rp + acc) = some v
  · rw [if_pos hv]
    exact h.answers_addAcc fun h' => h'.answers (hval ▸ hf (lt_length_of_memRead hv))
  · rw [if_neg hv]; exact hended

/-- A length byte leaves the rest of the length, which is at least 1, or ends it (R114, R139). -/
theorem Flight.answers_emitLength {last : State → StepOutcome} (h : Flight o ph rp acc inp out s)
    (hf : ∀ n out', 1 ≤ n → n ≤ acc → inFlight o ph rp n s.val inp out')
    (hlast : ∀ u out', Flight o ph rp acc inp out' u → u.val = s.val → AnswersInv (last u)) :
    AnswersInv (emitLength s last) := by
  rw [emitLength_of last h.acc_eq]
  by_cases hn : overChunk acc = true
  · rw [if_pos hn]
    rw [overChunk_iff] at hn
    have hrest : 1 ≤ acc - Config.chunk := by simp only [Config.chunk]; omega
    exact h.answers_append fun h' =>
      (h'.with_less_acc (Nat.sub_le _ _)).answers (hf _ _ hrest (Nat.sub_le _ _))
  · rw [if_neg hn]
    exact h.answers_append fun h' => hlast _ _ h' rfl

/-- A step that reads a stream byte fails or ends at the end of `IN`, or runs the byte's instruction. -/
theorem Flight.answers_fetchByte {atEnd : StepOutcome} {decoded : Byte → Instr}
    (h : Flight o ph rp acc inp out s) (hdec : ∀ x, decodeByte ph x = .ok (decoded x))
    (hend : AnswersInv atEnd) (hrun : ∀ x, rp < inp.length → AnswersInv (exec (decoded x) s)) :
    AnswersInv (answer (fetchByte ph s atEnd)) := by
  cases hx : memRead inp rp with
  | none => rw [fetchByte_end atEnd h.inp_eq h.rp_eq hx]; exact hend
  | some x =>
    rw [fetchByte_of atEnd h.inp_eq h.rp_eq hx (hdec x)]
    exact hrun x (lt_length_of_memRead hx)

theorem Flight.answers_whileReading {mn : String} {ops : List Operation} {k : StepOutcome}
    (h : Flight o ph rp acc inp out s) (ho : o ∈ ops) (hk : AnswersInv k) :
    AnswersInv (whileReading mn ops ph s k) := by
  rwa [whileReading_of k (readsByte_iff.mpr ⟨h.st_eq, ⟨o, ho, h.op_eq.symm⟩, h.ph_eq⟩)]

/-! The stream bytes. -/

theorem answersInv_execLit (v : Field) (h : Flight .decode .head rp acc inp out s) (hrp : rp < inp.length)
    (hout : out.all (fun x => !highBit x) = true) : AnswersInv (exec (.lit v) s) := by
  refine h.answers_whileReading (by decide) (h.answers_advance hrp fun h => h.answers_append fun h => h.answers ?_)
  exact ⟨hrp, by simpa [highBit_fieldByte] using hout⟩

theorem answersInv_execRuntag (v : Field) (h : Flight .decode .head rp acc inp out s) (hrp : rp < inp.length)
    (hout : out.all (fun x => !highBit x) = true) : AnswersInv (exec (.runtag v) s) := by
  refine h.answers_whileReading (by decide) (h.answers_advance hrp fun h => ?_)
  refine Flight.answers (o := .decode) (ph := .len) (rp := rp + 1) (acc := 0) (inp := inp) (out := out)
    { h with ph_eq := rfl, acc_eq := rfl, acc_within := exceeds_zero _ } ?_
  exact ⟨Nat.le_add_left 1 rp, hrp, by simp [highBit_fieldByte], hout⟩

/-- A continuation byte keeps the operation in phase `LEN`, whichever of the two reads it (R160, R119). -/
theorem answersInv_execCont (x : Field) (h : Flight o .len rp acc inp out s) (ho : o ∈ [Operation.vldec, .decode])
    (hrp : rp < inp.length) (hf : inFlight o .len (rp + 1) (acc + Config.chunk) s.val inp out) :
    AnswersInv (exec (.cont x) s) :=
  h.answers_whileReading ho (h.answers_advance hrp fun h => h.answers_addAcc fun h => h.answers hf)

/-- The terminator ends `VLDEC` with both of its results (R119). -/
theorem answersInv_execTerm_vldec (t : Field) (h : Flight .vldec .len rp acc inp out s) (hrp : rp < inp.length) :
    AnswersInv (exec (.term t) s) := by
  refine h.answers_whileReading (by decide) (h.answers_advance hrp fun h => h.answers_addAcc fun h => ?_)
  rw [if_pos h.op_eq]
  exact answersInv_next (machineInv_of_done rfl ⟨h.errc_eq, .inr (.inl ⟨h.op_eq, rfl, rfl⟩)⟩)

/-- The terminator takes `DECODE` to phase `EXP` (R161). -/
theorem answersInv_execTerm_decode (t : Field) (h : Flight .decode .len rp acc inp out s) (hrp : rp < inp.length)
    (hval : s.val.any (fun x => !highBit x) = true) (hout : out.all (fun x => !highBit x) = true) :
    AnswersInv (exec (.term t) s) := by
  refine h.answers_whileReading (by decide) (h.answers_advance hrp fun h => h.answers_addAcc fun h => ?_)
  rw [if_neg (by rw [h.op_eq]; decide)]
  exact (h.at_phase .exp).answers ⟨Nat.le_add_left 1 rp, hrp, hval, hout⟩

/-! The step rules of R36, operation by operation. -/

theorem encodeHead_of {b : Buffer} {p : Nat} (hb : s.inp = some b) (hp : s.rp = some p) :
    encodeHead s = if b.length ≤ p then .next (finish s) else startRun s := by
  simp [encodeHead, hb, hp]

theorem decodeExp_of {n : Nat} {v : Byte} (hn : s.acc = some n) (hv : s.val = some v) :
    decodeExp s = if n = 0 then .next { s with ph := some .head }
      else append v s fun t => .next { t with acc := some (n - 1) } := by
  simp [decodeExp, hn, hv]

theorem answersInv_scanHead (h : Flight .scan .head rp acc inp out s)
    (hf : inFlight .scan .head rp acc s.val inp out) : AnswersInv (scanHead s) := by
  obtain ⟨hrp, hout⟩ := hf
  exact h.answers_startRun hrp fun v => ⟨Nat.le_refl 1, hrp, rfl, hout⟩

theorem answersInv_scanCount (h : Flight .scan .count rp acc inp out s)
    (hf : inFlight .scan .count rp acc s.val inp out) : AnswersInv (scanCount s) := by
  obtain ⟨hacc, -, hval, hout⟩ := hf
  obtain ⟨v, hv⟩ := Option.isSome_iff_exists.mp hval
  refine h.answers_countRun hv (fun hle => ⟨Nat.le_add_left 1 acc, hle, rfl, hout⟩) ?_
  exact answersInv_next (machineInv_of_done rfl ⟨h.errc_eq, .inl ⟨h.op_eq, rfl, h.rnext_eq⟩⟩)

theorem answersInv_vlencLen (h : Flight .vlenc .len rp acc inp out s) : AnswersInv (vlencLen s) :=
  h.answers_emitLength (fun _ _ hn _ => hn) fun _ _ h _ => h.answers_finish (by decide)

theorem answersInv_vldecLen (h : Flight .vldec .len rp acc inp out s)
    (hf : inFlight .vldec .len rp acc s.val inp out) :
    AnswersInv (answer (fetchByte .len s (vldecEnd s))) := by
  refine h.answers_fetchByte decodeByte_len (h.answers_malformedStream (.inl rfl)) fun x hrp => ?_
  cases highBit x with
  | true => exact answersInv_execCont _ h (by decide) hrp hf
  | false => exact answersInv_execTerm_vldec _ h hrp

theorem answersInv_encodeHead (h : Flight .encode .head rp acc inp out s) : AnswersInv (encodeHead s) := by
  rw [encodeHead_of h.inp_eq h.rp_eq]
  by_cases hle : inp.length ≤ rp
  · rw [if_pos hle]; exact h.answers_finish (by decide)
  · rw [if_neg hle]
    have hrp : rp < inp.length := Nat.lt_of_not_le hle
    exact h.answers_startRun hrp fun v => ⟨Nat.le_refl 1, hrp, rfl⟩

theorem answersInv_encodeCount (h : Flight .encode .count rp acc inp out s)
    (hf : inFlight .encode .count rp acc s.val inp out) : AnswersInv (encodeCount s) := by
  obtain ⟨hacc, hend, hval⟩ := hf
  obtain ⟨v, hv⟩ := Option.isSome_iff_exists.mp hval
  refine h.answers_countRun hv (fun hle => ⟨Nat.le_add_left 1 acc, hle, rfl⟩) ?_
  by_cases hlit : literalRun acc v = true
  · rw [if_pos hlit]
    exact (h.at_rp hend).answers_append fun h => (h.at_phase .head).answers hend
  · rw [if_neg hlit]
    exact (h.at_rp hend).answers_append fun h => (h.at_phase .len).answers
      ⟨hacc, (Nat.le_add_left acc rp).trans hend, hend, hval⟩

theorem answersInv_encodeLen (h : Flight .encode .len rp acc inp out s)
    (hf : inFlight .encode .len rp acc s.val inp out) : AnswersInv (encodeLen s) := by
  obtain ⟨-, hacc, hrp, hval⟩ := hf
  exact h.answers_emitLength (fun _ _ hn hle => ⟨hn, hle.trans hacc, hrp, hval⟩)
    fun _ _ h _ => (h.at_phase .head).answers hrp

theorem answersInv_decodeHead (h : Flight .decode .head rp acc inp out s)
    (hf : inFlight .decode .head rp acc s.val inp out) :
    AnswersInv (answer (fetchByte .head s (decodeHeadEnd s))) := by
  obtain ⟨-, hout⟩ := hf
  refine h.answers_fetchByte decodeByte_head (h.answers_finish (by decide)) fun x hrp => ?_
  cases highBit x with
  | true => exact answersInv_execRuntag _ h hrp hout
  | false => exact answersInv_execLit _ h hrp hout

theorem answersInv_decodeLen (h : Flight .decode .len rp acc inp out s)
    (hf : inFlight .decode .len rp acc s.val inp out) :
    AnswersInv (answer (fetchByte .len s (decodeLenEnd s))) := by
  obtain ⟨-, -, hval, hout⟩ := hf
  refine h.answers_fetchByte decodeByte_len (h.answers_malformedStream (.inr rfl)) fun x hrp => ?_
  cases highBit x with
  | true => exact answersInv_execCont _ h (by decide) hrp ⟨Nat.le_add_left 1 rp, hrp, hval, hout⟩
  | false => exact answersInv_execTerm_decode _ h hrp hval hout

theorem answersInv_decodeExp (h : Flight .decode .exp rp acc inp out s)
    (hf : inFlight .decode .exp rp acc s.val inp out) : AnswersInv (decodeExp s) := by
  obtain ⟨hone, hrp, hval, hout⟩ := hf
  obtain ⟨v, hv, hlow⟩ := (Option.any_eq_true _ _).mp hval
  rw [decodeExp_of h.acc_eq hv]
  by_cases hacc : acc = 0
  · rw [if_pos hacc]; exact (h.at_phase .head).answers ⟨hrp, hout⟩
  · rw [if_neg hacc]
    refine h.answers_append fun h => (h.with_less_acc (Nat.sub_le acc 1)).answers ⟨hone, hrp, hval, ?_⟩
    rw [List.all_append, hout]; simpa using hlow

theorem answersInv_stepRule (h : Flight o ph rp acc inp out s) (hf : inFlight o ph rp acc s.val inp out) :
    AnswersInv (answer (stepRule o ph s)) := by
  match o, ph with
  | .scan, .head => exact answersInv_scanHead h hf
  | .scan, .count => exact answersInv_scanCount h hf
  | .vlenc, .len => exact answersInv_vlencLen h
  | .vldec, .len => exact answersInv_vldecLen h hf
  | .encode, .head => exact answersInv_encodeHead h
  | .encode, .count => exact answersInv_encodeCount h hf
  | .encode, .len => exact answersInv_encodeLen h hf
  | .decode, .head => exact answersInv_decodeHead h hf
  | .decode, .len => exact answersInv_decodeLen h hf
  | .decode, .exp => exact answersInv_decodeExp h hf
  | .scan, .len | .scan, .exp | .vlenc, .head | .vlenc, .count | .vlenc, .exp | .vldec, .head
  | .vldec, .count | .vldec, .exp | .encode, .exp | .decode, .count => exact hf.elim

end

theorem answersInv_blockAction {s : State} (h : MachineInv s) : AnswersInv (answer (blockAction s)) := by
  by_cases hb : s.st = .busy
  · obtain ⟨o, ph, rp, acc, inp, out, hfl, hf⟩ := (machineInv_busy_iff hb).mp h
    rw [blockAction_busy hb hfl.op_eq hfl.ph_eq]
    exact answersInv_stepRule hfl hf
  · rw [blockAction_quiet hb]; exact answersInv_next h

/-! The launches and the other moves of the host. -/

/-- A launch keeps the invariant when its own failure fits the command, its operands are tested against `CAP`, and
it starts the operation within the bounds of its first phase (R38). -/
theorem answersInv_launch {o : Operation} {sizes : List Nat} {bad : Option ErrCode} {ph : Phase} {b : Buffer}
    {p n : Nat} {s : State} (h : MachineInv s) (hbad : ∀ e, bad = some e → errorFits e o.code s.cap)
    (hstart : bad = none → inFlight o ph p n none b [])
    (hsizes : ∀ m ∈ [b.length, p, n], m = 0 ∨ m ∈ sizes) :
    AnswersInv (launch o sizes bad ph b p n s) := by
  obtain ⟨-, hl⟩ | ⟨-, hc, hl⟩ | ⟨-, -, e, he, hl⟩ | ⟨-, hc, hok, hl⟩ := launch_cases o sizes bad ph b p n s
  · rw [hl]; exact answersInv_next h
  · rw [hl]
    obtain ⟨m, -, hm⟩ := List.any_eq_true.mp hc
    exact answersInv_next (machineInv_raise (errorFits_capacityExceeded o hm))
  · rw [hl]; exact answersInv_next (machineInv_raise (hbad e he))
  · rw [hl]
    have hw : ∀ m ∈ [b.length, p, n], within s.cap m := fun m hm =>
      (hsizes m hm).elim (· ▸ exceeds_zero s.cap) fun hm => by
        simpa using List.any_eq_false.mp hc m hm
    refine Flight.answers (o := o) (ph := ph) (rp := p) (acc := n) (inp := b) (out := []) ?_ (hstart hok)
    exact ⟨rfl, rfl, rfl, rfl, rfl, rfl, rfl, rfl, rfl, rfl, hw _ (by simp), exceeds_zero s.cap,
      hw _ (by simp), hw _ (by simp)⟩

theorem answersInv_execScan {s : State} (buf : Buffer) (start : Nat) (h : MachineInv s) :
    AnswersInv (exec (.scan buf start) s) := by
  rw [exec_scan]
  by_cases hs : buf.length ≤ start
  · rw [if_pos hs]
    exact answersInv_launch h (by rintro _ ⟨⟩; rfl) (by rintro ⟨⟩) (by simp)
  · rw [if_neg hs]
    exact answersInv_launch h (by rintro _ ⟨⟩) (fun _ => ⟨Nat.lt_of_not_le hs, rfl⟩) (by simp)

theorem answersInv_execVlenc {s : State} (len : Nat) (h : MachineInv s) : AnswersInv (exec (.vlenc len) s) := by
  rw [exec_vlenc]
  by_cases hl : len = 0
  · rw [if_pos hl]
    exact answersInv_launch h (by rintro _ ⟨⟩; rfl) (by rintro ⟨⟩) (by simp)
  · rw [if_neg hl]
    exact answersInv_launch h (by rintro _ ⟨⟩) (fun _ => Nat.one_le_iff_ne_zero.mpr hl) (by simp)

/-! `VLDEC`, `ENCODE` and `DECODE` accept every operand within `CAP` (R117, R131, R151). -/

theorem answersInv_execVldec {s : State} (buf : Buffer) (pos : Nat) (h : MachineInv s) :
    AnswersInv (exec (.vldec buf pos) s) := by
  rw [exec_vldec]; exact answersInv_launch h (by rintro _ ⟨⟩) (fun _ => rfl) (by simp)

theorem answersInv_execEncode {s : State} (buf : Buffer) (h : MachineInv s) :
    AnswersInv (exec (.encode buf) s) := by
  rw [exec_encode]; exact answersInv_launch h (by rintro _ ⟨⟩) (fun _ => Nat.zero_le _) (by simp)

theorem answersInv_execDecode {s : State} (buf : Buffer) (h : MachineInv s) :
    AnswersInv (exec (.decode buf) s) := by
  rw [exec_decode]; exact answersInv_launch h (by rintro _ ⟨⟩) (fun _ => ⟨Nat.zero_le _, rfl⟩) (by simp)

theorem answersInv_command {c : BitVec 3} {o : Operands} {i : Instr} {s : State}
    (hi : decodeCommand c o = .ok i) (h : MachineInv s) : AnswersInv (exec i s) := by
  obtain ⟨-, rfl⟩ | ⟨-, rfl⟩ | ⟨-, rfl⟩ | ⟨-, rfl⟩ | ⟨-, rfl⟩ := decodeCommand_eq_ok hi
  · exact answersInv_execScan _ _ h
  · exact answersInv_execVlenc _ h
  · exact answersInv_execVldec _ _ h
  · exact answersInv_execEncode _ h
  · exact answersInv_execDecode _ h

/-- A code that does not decode is unassigned (R89). -/
theorem ofCode_none_of_decodeCommand_error {c : BitVec 3} {o : Operands} {e : DecodeError}
    (h : decodeCommand c o = .error e) : Operation.ofCode c = none := by
  cases hc : Operation.ofCode c with
  | none => rfl
  | some q => unfold decodeCommand at h; rw [hc] at h; cases q <;> cases h

theorem machineInv_launchUnassigned {c : BitVec 3} {s : State} (hc : Operation.ofCode c = none)
    (h : MachineInv s) : MachineInv (launchUnassigned c s) := by
  by_cases hb : s.st = .busy
  · rwa [launchUnassigned_busy hb]
  · rw [launchUnassigned_ready hb]; exact machineInv_raise hc

theorem machineInv_hostReset (s : State) : MachineInv (hostReset s) :=
  machineInv_of_idle rfl ⟨rfl, rfl, rfl, rfl, rfl, rfl, rfl, rfl, rfl, rfl⟩

/-- From a state that meets the invariant every step answers a next state that meets it, by the host's next move. -/
theorem answersInv_step {s : State} (h : MachineInv s) : AnswersInv (step s) := by
  cases hh : s.host with
  | nil => rw [step_silent hh]; exact answersInv_blockAction h
  | cons m rest =>
    have hrest : MachineInv { s with host := rest } := machineInv_host rest h
    cases m with
    | pause => rw [step_pause hh]; exact answersInv_blockAction hrest
    | reset => rw [step_reset hh]; exact answersInv_next (machineInv_hostReset _)
    | launch c o =>
      cases hd : decodeCommand c o with
      | ok i => rw [step_launch hh hd]; exact answersInv_command hd hrest
      | error e =>
        rw [step_launch_unassigned hh hd]
        exact answersInv_next (machineInv_launchUnassigned (ofCode_none_of_decodeCommand_error hd) hrest)
    | readStatus => rw [step_readStatus hh]; exact answersInv_next (machineInv_record _ hrest)
    | readResult => rw [step_readResult hh]; exact answersInv_next (machineInv_record _ hrest)

/-! The three statements. -/

/-- Settles O37: the values after reset are those of the idle block. -/
theorem resetMeetsTheInvariant : Obligations.ResetMeetsTheInvariant := machineInv_hostReset State.reset

/-- Settles O38: the next state of a step from the invariant meets it. -/
theorem stepKeepsTheInvariant : Obligations.StepKeepsTheInvariant := by
  intro s t hs ht
  obtain ⟨u, hu, hinv⟩ := answersInv_step hs
  rw [ht] at hu
  injection hu with htu
  exact htu ▸ hinv

/-- Settles O39: a step from the invariant is neither a fault nor a refusal. -/
theorem stepFromTheInvariantAnswersANextState : Obligations.StepFromTheInvariantAnswersANextState := by
  intro s hs
  obtain ⟨t, ht, -⟩ := answersInv_step hs
  exact ⟨t, ht⟩

end Sys2Proof.Machine
end

section
/-! The two buffers under the block's own step (10_state.md R34, 20_memory.md R56, 60_exceptions.md R197): `IN` is
never written, `OUT` grows by one byte at its end or stays, and an error discards both. Said once for each shared
operation, then for each stream byte and step rule. -/

namespace Sys2Proof.Machine

/-- If the outcome is a next state, `P` holds of it. -/
def NextHas (P : State → Prop) (x : StepOutcome) : Prop := ∀ t, x = .next t → P t

/-- Both buffers of `t` are those of `s`. -/
def SameBuffers (s t : State) : Prop := t.inp = s.inp ∧ t.out = s.out

/-- `IN` is that of `s`, and `OUT` is that of `s` or one byte longer at its end; or `t` is an error, without either. -/
def BuffersStep (s t : State) : Prop :=
  (t.inp = s.inp ∧ (t.out = s.out ∨ ∃ o v, s.out = some o ∧ t.out = some (o ++ [v]))) ∨
    (t.st = .err ∧ t.inp = none ∧ t.out = none)

theorem SameBuffers.buffersStep {s t : State} (h : SameBuffers s t) : BuffersStep s t := by
  obtain ⟨hinp, hout⟩ := h
  exact .inl ⟨hinp, .inl hout⟩

theorem buffersStep_raise (e : ErrCode) (s : State) : BuffersStep s (raise e s) := .inr ⟨rfl, rfl, rfl⟩

/-! The ways outcomes are put together. -/

section
variable {P : State → Prop}

theorem nextHas_next {t : State} (h : P t) : NextHas P (.next t) := by rintro _ ⟨⟩; exact h

theorem nextHas_ite {c : Prop} [Decidable c] {x y : StepOutcome} (hx : NextHas P x) (hy : NextHas P y) :
    NextHas P (if c then x else y) := by
  by_cases h : c
  · rwa [if_pos h]
  · rwa [if_neg h]

theorem nextHas_need {α : Type} {r : Reg} {x : Option α} {k : α → StepOutcome} (hk : ∀ a, NextHas P (k a)) :
    NextHas P (need r x k) := by
  intro t h
  obtain ⟨a, -, ht⟩ := need_eq_next.mp h
  exact hk a t ht

theorem nextHas_whileReading {mn : String} {ops : List Operation} {ph : Phase} {s : State} {k : StepOutcome}
    (hk : NextHas P k) : NextHas P (whileReading mn ops ph s k) := by
  intro t h
  obtain ⟨-, ht⟩ := whileReading_eq_next h
  exact hk t ht

end

section
variable {s : State}

/-! The shared operations. -/

theorem buffersStep_of_same {t : State} (hinp : t.inp = s.inp) (hout : t.out = s.out) :
    NextHas (BuffersStep s) (.next t) :=
  nextHas_next (SameBuffers.buffersStep ⟨hinp, hout⟩)

/-- An append makes `OUT` one byte longer when what follows touches no buffer. -/
theorem buffersStep_append {v : Byte} {k : State → StepOutcome} (hk : ∀ u, NextHas (SameBuffers u) (k u)) :
    NextHas (BuffersStep s) (append v s k) := by
  intro t h
  obtain ⟨o, ho, ⟨-, rfl⟩ | ⟨-, ht⟩⟩ := append_eq_next h
  · exact buffersStep_raise _ s
  · obtain ⟨hinp, hout⟩ := hk _ t ht
    exact .inl ⟨hinp, .inr ⟨o, v, ho, hout⟩⟩

theorem buffersStep_addAcc {n : Nat} {k : State → StepOutcome} (hk : ∀ u, NextHas (SameBuffers u) (k u)) :
    NextHas (BuffersStep s) (addAcc n s k) := by
  intro t h
  obtain ⟨a, -, ⟨-, rfl⟩ | ⟨-, ht⟩⟩ := addAcc_eq_next h
  · exact buffersStep_raise _ s
  · have hsame : SameBuffers { s with acc := some (a + n) } t := hk _ t ht
    exact SameBuffers.buffersStep hsame

theorem buffersStep_advance {k : State → StepOutcome} (hk : ∀ u, NextHas (BuffersStep u) (k u)) :
    NextHas (BuffersStep s) (advance s k) :=
  nextHas_need fun p => hk { s with rp := some (p + 1) }

theorem buffersStep_startRun : NextHas (BuffersStep s) (startRun s) := by
  intro t h
  obtain ⟨b, p, v, -, -, -, rfl⟩ := startRun_eq_next h
  exact SameBuffers.buffersStep ⟨rfl, rfl⟩

theorem buffersStep_countRun {ended : Nat → Nat → Byte → StepOutcome}
    (hended : ∀ p n v, NextHas (BuffersStep s) (ended p n v)) : NextHas (BuffersStep s) (countRun s ended) :=
  nextHas_need fun _ => nextHas_need fun p => nextHas_need fun n => nextHas_need fun v =>
    nextHas_ite (buffersStep_addAcc fun _ => nextHas_next ⟨rfl, rfl⟩) (hended p n v)

theorem buffersStep_emitLength {last : State → StepOutcome} (hlast : ∀ u, NextHas (SameBuffers u) (last u)) :
    NextHas (BuffersStep s) (emitLength s last) :=
  nextHas_need fun _ =>
    nextHas_ite (buffersStep_append fun _ => nextHas_next ⟨rfl, rfl⟩) (buffersStep_append hlast)

/-! The stream bytes: `LIT` appends, the other three touch no buffer. -/

theorem buffersStep_streamByte {i : Instr} (hi : isCommand i = false) : NextHas (BuffersStep s) (exec i s) := by
  cases i with
  | scan | vlenc | vldec | encode | decode => cases hi
  | lit v =>
    exact nextHas_whileReading (buffersStep_advance fun _ => buffersStep_append fun _ => nextHas_next ⟨rfl, rfl⟩)
  | runtag v => exact nextHas_whileReading (buffersStep_advance fun _ => buffersStep_of_same rfl rfl)
  | cont x =>
    exact nextHas_whileReading (buffersStep_advance fun _ => buffersStep_addAcc fun _ => nextHas_next ⟨rfl, rfl⟩)
  | term x =>
    exact nextHas_whileReading (buffersStep_advance fun _ => buffersStep_addAcc fun _ =>
      nextHas_ite (nextHas_next ⟨rfl, rfl⟩) (nextHas_next ⟨rfl, rfl⟩))

theorem isCommand_of_decodeByte {ph : Phase} {x : Byte} {i : Instr} (h : decodeByte ph x = .ok i) :
    isCommand i = false := by
  cases ph with
  | head => rw [decodeByte_head] at h; cases h; cases highBit x <;> rfl
  | len => rw [decodeByte_len] at h; cases h; cases highBit x <;> rfl
  | count | exp => cases h

theorem buffersStep_fetchByte (ph : Phase) {atEnd : StepOutcome} (hend : NextHas (BuffersStep s) atEnd) :
    NextHas (BuffersStep s) (answer (fetchByte ph s atEnd)) := by
  intro t h
  obtain ⟨b, p, -, -, ⟨-, ht⟩ | ⟨x, i, -, hi, ht⟩⟩ := fetchByte_eq_next h
  · exact hend t ht
  · exact buffersStep_streamByte (isCommand_of_decodeByte hi) t ht

/-! The step rules. -/

theorem buffersStep_encodeHead : NextHas (BuffersStep s) (encodeHead s) :=
  nextHas_need fun _ => nextHas_need fun _ => nextHas_ite (buffersStep_of_same rfl rfl) buffersStep_startRun

theorem buffersStep_encodeCount : NextHas (BuffersStep s) (encodeCount s) :=
  buffersStep_countRun fun p n _ => nextHas_ite
    (buffersStep_append (s := { s with rp := some (p + n) }) fun _ => nextHas_next ⟨rfl, rfl⟩)
    (buffersStep_append (s := { s with rp := some (p + n) }) fun _ => nextHas_next ⟨rfl, rfl⟩)

theorem buffersStep_decodeExp : NextHas (BuffersStep s) (decodeExp s) :=
  nextHas_need fun _ => nextHas_ite (buffersStep_of_same rfl rfl)
    (nextHas_need fun _ => buffersStep_append fun _ => nextHas_next ⟨rfl, rfl⟩)

theorem buffersStep_stepRule (o : Operation) (ph : Phase) :
    NextHas (BuffersStep s) (answer (stepRule o ph s)) := by
  match o, ph with
  | .scan, .head => exact buffersStep_startRun
  | .scan, .count => exact buffersStep_countRun fun _ _ _ => buffersStep_of_same rfl rfl
  | .vlenc, .len => exact buffersStep_emitLength fun _ => nextHas_next ⟨rfl, rfl⟩
  | .vldec, .len => exact buffersStep_fetchByte .len (nextHas_next (buffersStep_raise _ s))
  | .encode, .head => exact buffersStep_encodeHead
  | .encode, .count => exact buffersStep_encodeCount
  | .encode, .len => exact buffersStep_emitLength fun _ => nextHas_next ⟨rfl, rfl⟩
  | .decode, .head => exact buffersStep_fetchByte .head (buffersStep_of_same rfl rfl)
  | .decode, .len => exact buffersStep_fetchByte .len (nextHas_next (buffersStep_raise _ s))
  | .decode, .exp => exact buffersStep_decodeExp
  | .scan, .len | .scan, .exp | .vlenc, .head | .vlenc, .count | .vlenc, .exp | .vldec, .head
  | .vldec, .count | .vldec, .exp | .encode, .exp | .decode, .count => rintro _ ⟨⟩

end

/-- Settles O35: with a silent host a step is a wait or a step rule of the block. -/
theorem blockNeverWritesInputAndOnlyAppendsOutput : Obligations.BlockNeverWritesInputAndOnlyAppendsOutput := by
  intro s t hsilent h
  rw [step_silent hsilent] at h
  obtain ⟨-, rfl⟩ | ⟨o, ph, -, -, -, hrule⟩ := blockAction_eq_next h
  · exact SameBuffers.buffersStep ⟨rfl, rfl⟩
  · exact buffersStep_stepRule o ph t hrule

end Sys2Proof.Machine
end

section
/-! The decoder and the encoder of instructions (30_encoding.md R70 to R82, R88): a byte with a given field in each
phase, a record's bytes read one after the other, and where a stream byte is not read. -/

namespace Sys2Proof.Machine

/-! The instruction of each stream byte, by its field (R72, R73, R79). -/

theorem decodeByte_head_fieldByte (v : Field) : decodeByte .head (fieldByte v) = .ok (.lit v) := by
  simp [decodeByte_head, highBit_fieldByte, lowField_fieldByte]

theorem decodeByte_head_markedByte (v : Field) : decodeByte .head (markedByte v) = .ok (.runtag v) := by
  simp [decodeByte_head, highBit_markedByte, lowField_markedByte]

theorem decodeByte_len_fieldByte (t : Field) : decodeByte .len (fieldByte t) = .ok (.term t) := by
  simp [decodeByte_len, highBit_fieldByte, lowField_fieldByte]

theorem decodeByte_len_markedByte (x : Field) : decodeByte .len (markedByte x) = .ok (.cont x) := by
  simp [decodeByte_len, highBit_markedByte, lowField_markedByte]

/-! A byte is put together again from its bit 7 and its field. -/

theorem fieldByte_lowField_of_low {x : Byte} (h : highBit x = false) : fieldByte (lowField x) = x := by
  rw [fieldByte_lowField, clearMark_of_low x h]

theorem markedByte_lowField_of_high {x : Byte} (h : highBit x = true) : markedByte (lowField x) = x := by
  revert x; decide

/-- The two shapes of a stream byte (R72, R73). -/
theorem eq_fieldByte_or_eq_markedByte (x : Byte) : (∃ v, x = fieldByte v) ∨ ∃ v, x = markedByte v := by
  cases hx : highBit x with
  | false => exact .inl ⟨_, (fieldByte_lowField_of_low hx).symm⟩
  | true => exact .inr ⟨_, (markedByte_lowField_of_high hx).symm⟩

theorem lowField_eq_ofNat (x : Byte) : lowField x = BitVec.ofNat 7 x.toNat := by
  apply BitVec.eq_of_toNat_eq
  simp [lowField]

theorem lowField_eq_ofNat_of_high {x : Byte} (h : 0x80 ≤ x.toNat) : lowField x = BitVec.ofNat 7 (x.toNat - 0x80) := by
  rw [lowField_eq_ofNat]
  apply BitVec.eq_of_toNat_eq
  simp only [BitVec.toNat_ofNat]
  omega

/-! Streams of records. -/

@[simp] theorem streamBytes_nil : streamBytes [] = [] := rfl

@[simp] theorem streamBytes_cons (r : Record) (rs : List Record) :
    streamBytes (r :: rs) = recordBytes r ++ streamBytes rs := List.flatMap_cons

@[simp] theorem streamBytes_append (rs qs : List Record) :
    streamBytes (rs ++ qs) = streamBytes rs ++ streamBytes qs := List.flatMap_append

theorem decodeStream_cons {ph : Phase} {b : Byte} {i : Instr} (e : Buffer) (h : decodeByte ph b = .ok i) :
    decodeStream ph (b :: e) = i :: decodeStream (phaseAfter i) e := by
  simp [decodeStream, h]

/-- Continuation bytes keep the phase at `LEN`. -/
theorem decodeStream_conts (conts : List Field) (e : Buffer) :
    decodeStream .len (conts.map markedByte ++ e) = conts.map Instr.cont ++ decodeStream .len e := by
  induction conts with
  | nil => rfl
  | cons x conts ih =>
    simpa [ih, phaseAfter] using decodeStream_cons (conts.map markedByte ++ e) (decodeByte_len_markedByte x)

/-- The bytes of a record are read as its instructions, and leave the phase at `HEAD` again. -/
theorem decodeStream_record (r : Record) (e : Buffer) :
    decodeStream .head (recordBytes r ++ e) = recordInstrs r ++ decodeStream .head e := by
  cases r with
  | literal v => exact decodeStream_cons e (decodeByte_head_fieldByte v)
  | run v conts t =>
    calc decodeStream .head (recordBytes (.run v conts t) ++ e)
        = .runtag v :: decodeStream .len (conts.map markedByte ++ fieldByte t :: e) := by
          simpa [recordBytes, phaseAfter] using decodeStream_cons _ (decodeByte_head_markedByte v)
      _ = .runtag v :: (conts.map Instr.cont ++ .term t :: decodeStream .head e) := by
          rw [decodeStream_conts, decodeStream_cons e (decodeByte_len_fieldByte t)]; rfl
      _ = recordInstrs (.run v conts t) ++ decodeStream .head e := by simp [recordInstrs]

theorem decodeStream_streamBytes (rs : List Record) :
    decodeStream .head (streamBytes rs) = rs.flatMap recordInstrs := by
  induction rs with
  | nil => rfl
  | cons r rs ih => rw [streamBytes_cons, decodeStream_record, ih, List.flatMap_cons]

theorem filterMap_streamByteOf_recordInstrs (r : Record) :
    (recordInstrs r).filterMap streamByteOf = recordBytes r := by
  cases r with
  | literal v => rfl
  | run v conts t =>
    have hconts : conts.filterMap (streamByteOf ∘ Instr.cont) = conts.map markedByte :=
      congrFun (List.filterMap_eq_map (f := markedByte)) conts
    simp [recordInstrs, recordBytes, List.filterMap_map, hconts, streamByteOf, encodeInstr]

/-- Settles O3: record by record, each read from phase `HEAD` and leaving it. -/
theorem streamOfRecordsDecodesToItsInstructions : Obligations.StreamOfRecordsDecodesToItsInstructions := by
  intro rs
  refine ⟨decodeStream_streamBytes rs, ?_⟩
  simp only [List.filterMap_flatMap, filterMap_streamByteOf_recordInstrs, streamBytes]

/-- Settles O1: a command by its code, a stream byte by its bit 7 in the phase that reads it. -/
theorem decodeOfEncodeIsTheInstruction : Obligations.DecodeOfEncodeIsTheInstruction := by
  intro i
  cases i with
  | scan | vlenc | vldec | encode | decode => simp [encodeInstr, decodeInstr, decodeCommand]
  | lit v => exact decodeByte_head_fieldByte v
  | runtag v => exact decodeByte_head_markedByte v
  | cont x => exact decodeByte_len_markedByte x
  | term t => exact decodeByte_len_fieldByte t

/-- Settles O2: the byte is its bit 7 and its field. -/
theorem encodeOfDecodeIsTheStreamByte : Obligations.EncodeOfDecodeIsTheStreamByte := by
  intro ph b i h
  change decodeByte ph b = .ok i at h
  cases ph with
  | count | exp => cases h
  | head =>
    obtain ⟨v, rfl⟩ | ⟨v, rfl⟩ := eq_fieldByte_or_eq_markedByte b
    · rw [decodeByte_head_fieldByte] at h; cases h; rfl
    · rw [decodeByte_head_markedByte] at h; cases h; rfl
  | len =>
    obtain ⟨v, rfl⟩ | ⟨v, rfl⟩ := eq_fieldByte_or_eq_markedByte b
    · rw [decodeByte_len_fieldByte] at h; cases h; rfl
    · rw [decodeByte_len_markedByte] at h; cases h; rfl

/-- In a state without the operation and the phase of its class, a stream byte is refused (log 11). -/
theorem whileReading_elsewhere {mn : String} {ops : List Operation} {ph : Phase} {s : State} (k : StepOutcome)
    (h : ¬ (s.st = .busy ∧ s.op ∈ ops.map Operation.code ∧ s.ph = some ph)) :
    whileReading mn ops ph s k = .refused (.byteNotRead mn) := by
  apply whileReading_not
  rwa [← Bool.not_eq_true, readsByte_iff, ← List.mem_map]

/-- Settles O20: `DECODE` alone reads head bytes, `DECODE` and `VLDEC` read length bytes. -/
theorem streamByteNotReadIsRefused : Obligations.StreamByteNotReadIsRefused := by
  refine fun s v => ⟨fun hnot => ?_, fun hnot => ?_⟩
  · have h : ¬ (s.st = .busy ∧ s.op ∈ [Operation.decode].map Operation.code ∧ s.ph = some .head) := by
      simpa using hnot
    exact ⟨whileReading_elsewhere _ h, whileReading_elsewhere _ h⟩
  · exact ⟨whileReading_elsewhere _ hnot, whileReading_elsewhere _ hnot⟩

/-- Settles O4: bit 7 is the test `0x80 ≤ b`, and the field is what remains of the byte. -/
theorem streamBytesClassifiedByBit7AndPhase : Obligations.StreamBytesClassifiedByBit7AndPhase := by
  refine ⟨fun b => ⟨fun hlow => ?_, fun hhigh => ?_, rfl, rfl⟩, fun v => ⟨rfl, rfl, rfl, rfl⟩⟩
  · simp [decodeByte_head, decodeByte_len, (highBit_false_iff b).mpr hlow, lowField_eq_ofNat]
  · simp [decodeByte_head, decodeByte_len, (highBit_iff b).mpr hhigh, lowField_eq_ofNat_of_high hhigh]

/-- Settles O5: each word is evaluated by the decoder. -/
theorem specWordsDecode : Obligations.SpecWordsDecode :=
  ⟨rfl, rfl, rfl, rfl, rfl, rfl, rfl, rfl, rfl, rfl⟩

end Sys2Proof.Machine
end

section
/-! `decode` on records (30_encoding.md R81 to R83, 43_decoder.md R151, R152): every byte string is a sequence of
records and then an unfinished one, and `decode` fails exactly when there is an unfinished one. -/

namespace Sys2Proof.Machine

/-! The recursion of `decode`, free of its fuel (R151). -/

/-- Every record takes a byte, so fuel beyond the length changes nothing. -/
theorem decodeLoop_of_length_le {fuel fuel' : Nat} {e : Buffer} (h : e.length ≤ fuel) (h' : e.length ≤ fuel') :
    decodeLoop fuel e = decodeLoop fuel' e := by
  induction fuel generalizing fuel' e with
  | zero =>
    obtain rfl := List.length_eq_zero_iff.mp (Nat.le_zero.mp h)
    cases fuel' <;> rfl
  | succ fuel ih =>
    cases e with
    | nil => cases fuel' <;> rfl
    | cons x xs =>
      cases fuel' with
      | zero => cases h'
      | succ fuel' =>
        have hrest (n : Nat) : decodeLoop fuel (xs.drop n) = decodeLoop fuel' (xs.drop n) := by
          simp only [List.length_cons] at h h'
          apply ih <;> simp only [List.length_drop] <;> omega
        have hxs := hrest 0
        rw [List.drop_zero] at hxs
        simp only [decodeLoop, hrest, hxs]

@[simp] theorem decodeFn_nil : decodeFn [] = some [] := rfl

/-- A literal stands for itself. -/
theorem decodeFn_cons_low {x : Byte} (xs : Buffer) (h : highBit x = false) :
    decodeFn (x :: xs) = (decodeFn xs).map (x :: ·) := by
  simp [decodeFn, decodeLoop, h]

/-- A tag without a complete length is malformed. -/
theorem decodeFn_cons_high_none {x : Byte} {xs : Buffer} (h : highBit x = true) (hlen : vldecFn xs 0 = none) :
    decodeFn (x :: xs) = none := by
  simp [decodeFn, decodeLoop, h, hlen]

/-- A tag with its length stands for that many copies of its value. -/
theorem decodeFn_cons_high_some {x : Byte} {xs : Buffer} {n next : Nat} (h : highBit x = true)
    (hlen : vldecFn xs 0 = some (n, next)) :
    decodeFn (x :: xs) = (decodeFn (xs.drop next)).map (List.replicate n (clearMark x) ++ ·) := by
  have hfuel : decodeLoop xs.length (xs.drop next) = decodeFn (xs.drop next) :=
    decodeLoop_of_length_le (by simp) le_rfl
  simp [decodeFn, decodeLoop, h, hlen, hfuel]

/-! The length decoder on the length bytes of a record (R75, R117). -/

/-- Each continuation byte adds 127, whatever its low bits are. -/
theorem vldecLoop_conts (conts : List Field) (e : Buffer) (p acc : Nat) :
    vldecLoop (conts.map markedByte ++ e) p acc =
      vldecLoop e (p + conts.length) (acc + Config.chunk * conts.length) := by
  induction conts generalizing p acc with
  | nil => rfl
  | cons x conts ih =>
    have hp : p + 1 + conts.length = p + (conts.length + 1) := by omega
    have hacc : acc + Config.chunk + Config.chunk * conts.length = acc + Config.chunk * (conts.length + 1) := by
      rw [Nat.mul_succ]; omega
    simp [vldecLoop, highBit_markedByte, ih, hp, hacc]

theorem vldecFn_record (v : Field) (conts : List Field) (t : Field) (e : Buffer) :
    vldecFn (conts.map markedByte ++ fieldByte t :: e) 0 =
      some (recordLength (.run v conts t), conts.length + 1) := by
  rw [vldecFn, List.drop_zero, vldecLoop_conts]
  simp [vldecLoop, highBit_fieldByte, lowField_fieldByte, recordLength]

theorem vldecFn_conts (conts : List Field) : vldecFn (conts.map markedByte) 0 = none := by
  simpa [vldecFn, vldecLoop] using vldecLoop_conts conts [] 0 0

/-! `decode` record by record (R152). -/

theorem decodeFn_record (r : Record) (e : Buffer) :
    decodeFn (recordBytes r ++ e) = (decodeFn e).map (recordOutput r ++ ·) := by
  cases r with
  | literal v => exact decodeFn_cons_low e (highBit_fieldByte v)
  | run v conts t =>
    have hrest : (conts.map markedByte ++ fieldByte t :: e).drop (conts.length + 1) = e := by
      simp [List.drop_append]
    have hvalue : clearMark (markedByte v) = fieldByte v := by
      rw [← fieldByte_lowField, lowField_markedByte]
    have hrun := decodeFn_cons_high_some (highBit_markedByte v) (vldecFn_record v conts t e)
    rw [hrest, hvalue] at hrun
    simpa [recordBytes, recordOutput, recordValue] using hrun

theorem decodeFn_streamBytes_append (rs : List Record) (e : Buffer) :
    decodeFn (streamBytes rs ++ e) = (decodeFn e).map (rs.flatMap recordOutput ++ ·) := by
  induction rs with
  | nil => simp
  | cons r rs ih =>
    rw [streamBytes_cons, List.append_assoc, decodeFn_record, ih, Option.map_map]
    congr 1
    funext b
    simp

theorem decodeFn_streamBytes (rs : List Record) :
    decodeFn (streamBytes rs) = some (rs.flatMap recordOutput) := by
  simpa using decodeFn_streamBytes_append rs []

/-- A tag and continuation bytes without a terminator are malformed (R81). -/
theorem decodeFn_unfinished (rs : List Record) (v : Field) (conts : List Field) :
    decodeFn (streamBytes rs ++ (v :: conts).map markedByte) = none := by
  rw [decodeFn_streamBytes_append, List.map_cons,
    decodeFn_cons_high_none (highBit_markedByte v) (vldecFn_conts conts), Option.map_none]

/-! Every byte string is records and an unfinished record (R81, R82). -/

/-- The bytes of `tail` are a tag and continuation bytes without a terminator; `[]` is no unfinished record. -/
theorem exists_records_and_tail (e : Buffer) :
    ∃ (rs : List Record) (tail : List Field), e = streamBytes rs ++ tail.map markedByte := by
  induction e using List.reverseRecOn with
  | nil => exact ⟨[], [], rfl⟩
  | append_singleton e x ih =>
    obtain ⟨rs, tail, rfl⟩ := ih
    obtain ⟨t, rfl⟩ | ⟨v, rfl⟩ := eq_fieldByte_or_eq_markedByte x
    · cases tail with
      | nil => exact ⟨rs ++ [.literal t], [], by simp [recordBytes]⟩
      | cons v conts => exact ⟨rs ++ [.run v conts t], [], by simp [recordBytes]⟩
    · exact ⟨rs, tail ++ [v], by simp⟩

theorem recordBytes_eq_append_fieldByte (r : Record) : ∃ pre t, recordBytes r = pre ++ [fieldByte t] := by
  cases r with
  | literal v => exact ⟨[], v, rfl⟩
  | run v conts t => exact ⟨markedByte v :: conts.map markedByte, t, rfl⟩

theorem wellFormedStream_append_singleton (e : Buffer) (x : Byte) :
    wellFormedStream (e ++ [x]) = !highBit x := by
  simp [wellFormedStream]

theorem wellFormedStream_streamBytes (rs : List Record) : wellFormedStream (streamBytes rs) = true := by
  induction rs using List.reverseRecOn with
  | nil => rfl
  | append_singleton rs r _ =>
    obtain ⟨pre, t, hr⟩ := recordBytes_eq_append_fieldByte r
    have hlast : streamBytes (rs ++ [r]) = (streamBytes rs ++ pre) ++ [fieldByte t] := by simp [hr]
    rw [hlast, wellFormedStream_append_singleton, highBit_fieldByte, Bool.not_false]

theorem wellFormedStream_unfinished (e : Buffer) (v : Field) (conts : List Field) :
    wellFormedStream (e ++ (v :: conts).map markedByte) = false := by
  obtain ⟨init, x, hlast⟩ := (List.eq_nil_or_concat' (v :: conts)).resolve_left (List.cons_ne_nil v conts)
  rw [hlast, List.map_append, ← List.append_assoc, List.map_singleton, wellFormedStream_append_singleton,
    highBit_markedByte, Bool.not_true]

theorem wellFormedStream_iff_records (e : Buffer) :
    wellFormedStream e = true ↔ ∃ rs, e = streamBytes rs := by
  constructor
  · intro hwf
    obtain ⟨rs, tail, rfl⟩ := exists_records_and_tail e
    cases tail with
    | nil => exact ⟨rs, by simp⟩
    | cons v conts => rw [wellFormedStream_unfinished] at hwf; cases hwf
  · rintro ⟨rs, rfl⟩
    exact wellFormedStream_streamBytes rs

theorem isSome_decodeFn (e : Buffer) : (decodeFn e).isSome = wellFormedStream e := by
  obtain ⟨rs, tail, rfl⟩ := exists_records_and_tail e
  cases tail with
  | nil => simp [decodeFn_streamBytes, wellFormedStream_streamBytes]
  | cons v conts => rw [decodeFn_unfinished, wellFormedStream_unfinished, Option.isSome_none]

theorem wellFormedStream_false_iff (e : Buffer) :
    wellFormedStream e = false ↔ ∃ x, e.getLast? = some x ∧ 0x80 ≤ x.toNat := by
  simp only [wellFormedStream, ← highBit_iff]
  cases e.getLast? <;> simp

/-- Settles O53: `decode` fails exactly on records followed by an unfinished one. -/
theorem malformedIffTheLastByteIsHigh : Obligations.MalformedIffTheLastByteIsHigh := by
  intro e
  refine ⟨?_, wellFormedStream_iff_records e, by rw [isSome_decodeFn]⟩
  rw [← wellFormedStream_false_iff, ← isSome_decodeFn, Option.isSome_eq_false_iff, Option.isNone_iff_eq_none]

end Sys2Proof.Machine
end

section
/-! The encoder's image on seven-bit buffers (30_encoding.md R84 to R86, 42_encoder.md R135): every seven-bit buffer
is what some records of the image stand for, and `encode` gives those records back. -/

namespace Sys2Proof.Machine

/-! The recursion of `encode`, free of its fuel, run by run (R135). -/

/-- Every run takes a byte, so fuel beyond the length changes nothing. -/
theorem encodeLoop_of_length_le {fuel fuel' : Nat} {b : Buffer} (h : b.length ≤ fuel) (h' : b.length ≤ fuel') :
    encodeLoop fuel b = encodeLoop fuel' b := by
  induction fuel generalizing fuel' b with
  | zero =>
    obtain rfl := List.length_eq_zero_iff.mp (Nat.le_zero.mp h)
    cases fuel' <;> rfl
  | succ fuel ih =>
    cases b with
    | nil => cases fuel' <;> rfl
    | cons v rest =>
      cases fuel' with
      | zero => cases h'
      | succ fuel' =>
        have hrest (n : Nat) : encodeLoop fuel (rest.drop n) = encodeLoop fuel' (rest.drop n) := by
          simp only [List.length_cons] at h h'
          apply ih <;> simp only [List.length_drop] <;> omega
        simp only [encodeLoop, hrest]

@[simp] theorem encodeFn_nil : encodeFn [] = [] := rfl

theorem encodeFn_cons (v : Byte) (rest : Buffer) :
    encodeFn (v :: rest) = runRecord v (runLength v rest + 1) ++ encodeFn (rest.drop (runLength v rest)) := by
  have hfuel : encodeLoop rest.length (rest.drop (runLength v rest)) = encodeFn (rest.drop (runLength v rest)) :=
    encodeLoop_of_length_le (by simp) le_rfl
  simp [encodeFn, encodeLoop, hfuel]

theorem runLength_replicate_append {v : Byte} {b : Buffer} (n : Nat) (hb : b.head? ≠ some v) :
    runLength v (List.replicate n v ++ b) = n := by
  induction n with
  | zero =>
    cases b with
    | nil => rfl
    | cons x xs => exact if_neg (by simpa using hb)
  | succ n ih => simp [List.replicate_succ, runLength, ih]

/-- A maximal run at the front of the buffer is encoded by its record. -/
theorem encodeFn_replicate_append {v : Byte} {b : Buffer} {n : Nat} (hn : 1 ≤ n) (hb : b.head? ≠ some v) :
    encodeFn (List.replicate n v ++ b) = runRecord v n ++ encodeFn b := by
  obtain ⟨m, rfl⟩ := Nat.exists_eq_add_of_le' hn
  rw [List.replicate_succ, List.cons_append, encodeFn_cons, runLength_replicate_append m hb,
    List.drop_left' List.length_replicate]

/-! The length encoder on `127 * k + t` (R113). -/

theorem vlencLoop_chunks {fuel k t : Nat} (hk : k ≤ fuel) (ht : 1 ≤ t) (ht' : t ≤ 127) :
    vlencLoop fuel (Config.chunk * k + t) = List.replicate k Config.contByte ++ [lengthByte t] := by
  induction k generalizing fuel with
  | zero => cases fuel <;> simp [vlencLoop, (overChunk_false_iff t).mpr ht']
  | succ k ih =>
    cases fuel with
    | zero => cases hk
    | succ fuel =>
      have hover : overChunk (Config.chunk * (k + 1) + t) = true := by
        rw [overChunk_iff]; unfold Config.chunk; omega
      have hless : Config.chunk * (k + 1) + t - Config.chunk = Config.chunk * k + t := by
        unfold Config.chunk; omega
      simp [vlencLoop, hover, hless, ih (Nat.le_of_succ_le_succ hk), List.replicate_succ]

theorem vlencFn_chunks (k : Nat) {t : Nat} (ht : 1 ≤ t) (ht' : t ≤ 127) :
    vlencFn (Config.chunk * k + t) = List.replicate k Config.contByte ++ [lengthByte t] :=
  vlencLoop_chunks (by unfold Config.chunk; omega) ht ht'

/-! Records of the image: the bytes of one, and one for every value and length (R86). -/

/-- Canonical, and at least 2 long when it is a run record: what R85 asks of a record by itself. -/
def imageRecord (r : Record) : Bool := canonicalRecord r && longEnough r

theorem encoderImage_cons_iff (r : Record) (rs : List Record) :
    encoderImage (r :: rs) = true ↔
      imageRecord r = true ∧ (∀ q ∈ rs.head?, recordValue r ≠ recordValue q) ∧ encoderImage rs = true := by
  cases rs with
  | nil => simp [encoderImage, imageRecord, adjacentDiffer]
  | cons q rs =>
    simp [encoderImage, imageRecord, adjacentDiffer, and_assoc, and_left_comm]

theorem imageRecord_run_iff (v : Field) (conts : List Field) (t : Field) :
    imageRecord (.run v conts t) = true ↔
      conts = List.replicate conts.length 0x7F ∧ 1 ≤ t.toNat ∧ 2 ≤ recordLength (.run v conts t) := by
  have ht : t ≠ 0 ↔ 1 ≤ t.toNat := by
    bv_omega
  simp [imageRecord, canonicalRecord, longEnough, List.eq_replicate_iff, ← ht, and_assoc]

theorem one_le_recordLength {r : Record} (h : imageRecord r = true) : 1 ≤ recordLength r := by
  cases r with
  | literal v => exact le_rfl
  | run v conts t => exact Nat.le_of_succ_le ((imageRecord_run_iff v conts t).mp h).2.2

/-- The bytes of a record of the image are those the encoder writes for a run of its value and length. -/
theorem recordBytes_eq_runRecord {r : Record} (h : imageRecord r = true) :
    recordBytes r = runRecord (fieldByte (recordValue r)) (recordLength r) := by
  cases r with
  | literal v => simp [recordBytes, runRecord, recordLength, recordValue, literalRun, highBit_fieldByte]
  | run v conts t =>
    obtain ⟨hconts, ht, hlen⟩ := (imageRecord_run_iff v conts t).mp h
    have hnot : literalRun (recordLength (.run v conts t)) (fieldByte v) = false := by
      rw [← Bool.not_eq_true, literalRun_iff]; omega
    have hmap : conts.map markedByte = List.replicate conts.length Config.contByte := by
      rw [hconts, List.map_replicate, List.length_replicate]; rfl
    have hterm : fieldByte t = lengthByte t.toNat := by
      apply BitVec.eq_of_toNat_eq; simp [fieldByte, lengthByte]
    have hvlenc : vlencFn (recordLength (.run v conts t)) = conts.map markedByte ++ [fieldByte t] := by
      rw [recordLength, vlencFn_chunks conts.length ht (by omega), hmap, hterm]
    simp [recordBytes, runRecord, recordValue, hnot, hvlenc, markedByte]

theorem exists_imageRecord (v : Field) {n : Nat} (hn : 1 ≤ n) :
    ∃ r, imageRecord r = true ∧ recordValue r = v ∧ recordLength r = n := by
  by_cases hone : n = 1
  · exact ⟨.literal v, rfl, rfl, hone.symm⟩
  · have ht : (BitVec.ofNat 7 ((n - 1) % 127 + 1)).toNat = (n - 1) % 127 + 1 := by
      rw [BitVec.toNat_ofNat]; omega
    have hlen : recordLength (.run v (List.replicate ((n - 1) / 127) 0x7F) (.ofNat 7 ((n - 1) % 127 + 1))) = n := by
      rw [recordLength, ht, List.length_replicate]; unfold Config.chunk; omega
    exact ⟨_, (imageRecord_run_iff _ _ _).mpr ⟨by simp, by omega, by omega⟩, rfl, hlen⟩

/-! Buffers and the records they are the output of. -/

theorem sevenBit_records (rs : List Record) : sevenBit (rs.flatMap recordOutput) = true := by
  simp [sevenBit, recordOutput, List.all_replicate, highBit_fieldByte]

theorem recordOutput_head? {r : Record} (h : imageRecord r = true) (b : Buffer) :
    (recordOutput r ++ b).head? = some (fieldByte (recordValue r)) := by
  obtain ⟨m, hm⟩ := Nat.exists_eq_add_of_le' (one_le_recordLength h)
  simp [recordOutput, hm, List.replicate_succ]

theorem fieldByte_injective {v w : Field} (h : fieldByte v = fieldByte w) : v = w := by
  rw [← lowField_fieldByte v, h, lowField_fieldByte]

/-- The next record's value differs, so each record's output is a maximal run. -/
theorem encodeFn_records {rs : List Record} (h : encoderImage rs = true) :
    encodeFn (rs.flatMap recordOutput) = streamBytes rs := by
  induction rs with
  | nil => rfl
  | cons r rs ih =>
    obtain ⟨hr, hdiff, hrs⟩ := (encoderImage_cons_iff r rs).mp h
    have hmax : (rs.flatMap recordOutput).head? ≠ some (fieldByte (recordValue r)) := by
      cases rs with
      | nil => simp
      | cons q rs =>
        obtain ⟨hq, -, -⟩ := (encoderImage_cons_iff q rs).mp hrs
        rw [List.flatMap_cons, recordOutput_head? hq]
        intro heq
        exact hdiff q rfl (fieldByte_injective (Option.some.inj heq)).symm
    rw [List.flatMap_cons, recordOutput, encodeFn_replicate_append (one_le_recordLength hr) hmax,
      ← recordBytes_eq_runRecord hr, ih hrs, streamBytes_cons]

/-- A byte before the buffer makes the first record one longer, or is a literal of its own. -/
theorem exists_encoderImage {b : Buffer} (h : sevenBit b = true) :
    ∃ rs, encoderImage rs = true ∧ rs.flatMap recordOutput = b := by
  induction b with
  | nil => exact ⟨[], rfl, rfl⟩
  | cons x b ih =>
    obtain ⟨hx, hb⟩ : highBit x = false ∧ sevenBit b = true := by simpa [sevenBit] using h
    obtain ⟨rs, himage, rfl⟩ := ih hb
    by_cases hsame : ∃ r qs, rs = r :: qs ∧ recordValue r = lowField x
    · obtain ⟨r, qs, rfl, hvalue⟩ := hsame
      obtain ⟨-, hdiff, hqs⟩ := (encoderImage_cons_iff r qs).mp himage
      obtain ⟨r', hr', hvalue', hlen'⟩ := exists_imageRecord (lowField x) (Nat.le_add_left 1 (recordLength r))
      refine ⟨r' :: qs, (encoderImage_cons_iff r' qs).mpr ⟨hr', ?_, hqs⟩, ?_⟩
      · rwa [hvalue', ← hvalue]
      · simp [recordOutput, hvalue, hvalue', hlen', List.replicate_succ, fieldByte_lowField_of_low hx]
    · refine ⟨.literal (lowField x) :: rs, (encoderImage_cons_iff _ rs).mpr ⟨rfl, ?_, himage⟩, ?_⟩
      · intro q hq heq
        obtain ⟨qs, rfl⟩ := List.head?_eq_some_iff.mp hq
        exact hsame ⟨q, qs, rfl, heq.symm⟩
      · simp [recordOutput, recordLength, recordValue, fieldByte_lowField_of_low hx]

/-- Settles O56: a seven-bit buffer is the output of records of the image, and is encoded as those. -/
theorem encoderImageOnSevenBitInputs : Obligations.EncoderImageOnSevenBitInputs := by
  refine fun e => ⟨⟨?_, ?_⟩, ?_⟩
  · rintro ⟨b, hb, rfl⟩
    obtain ⟨rs, himage, rfl⟩ := exists_encoderImage hb
    exact ⟨rs, encodeFn_records himage, himage⟩
  · rintro ⟨rs, rfl, himage⟩
    exact ⟨_, sevenBit_records rs, encodeFn_records himage⟩
  · rintro b hb rfl
    obtain ⟨rs, himage, rfl⟩ := exists_encoderImage hb
    rw [encodeFn_records himage, decodeFn_streamBytes]

end Sys2Proof.Machine
end

section
/-! What claims about whole operations share: runs of several steps, the step of an operation in flight with a silent
host (10_state.md R36), and what a launch that fails leaves (R38, 60_exceptions.md R197). -/

namespace Sys2Proof.Machine

theorem stepsTo_one {s t : State} (h : step s = .next t) : stepsTo 1 s = some t := by
  simp [stepsTo, h]

/-- Two runs, one after the other. -/
theorem stepsTo_trans {k l : Nat} {s t u : State} (hst : stepsTo k s = some t) (htu : stepsTo l t = some u) :
    stepsTo (k + l) s = some u := by
  induction k generalizing s with
  | zero =>
    obtain rfl := Option.some.inj hst
    rwa [Nat.zero_add]
  | succ k ih =>
    rw [Nat.succ_add]
    unfold stepsTo at hst ⊢
    cases h : step s with
    | next s' => rw [h] at hst; exact ih hst
    | fault r => rw [h] at hst; cases hst
    | refused r => rw [h] at hst; cases hst

theorem step_blockIn {o : Operation} {ph : Phase} {s : State} (h : blockIn o ph s) :
    step s = answer (stepRule o ph s) := by
  obtain ⟨hsilent, hbusy, hop, hph⟩ := h
  rw [step_silent hsilent, blockAction_busy hbusy hop hph]

/-- What a failed launch leaves (R38, R197). -/
theorem failedWith_failLaunch (c : BitVec 3) (e : ErrCode) (s : State) : failedWith c e s (failLaunch c e s) :=
  ⟨rfl, rfl, rfl, ⟨rfl, rfl, rfl, rfl, rfl, rfl, rfl, rfl⟩, rfl, rfl, rfl⟩

/-- Settles O14: operands within `CAP` that violate the precondition of the command fail its own test. -/
theorem preconditionFailureAtLaunch : Obligations.PreconditionFailureAtLaunch := by
  intro s hb
  refine ⟨fun buf start hle hbuf hstart => ⟨_, ?_, failedWith_failLaunch _ _ s⟩,
    ⟨_, ?_, failedWith_failLaunch _ _ s⟩⟩
  · rw [exec_scan, if_pos hle]
    exact launch_bad hb (by simp [hbuf, hstart])
  · rw [exec_vlenc, if_pos rfl]
    exact launch_bad hb (by simp)

end Sys2Proof.Machine
end

section
/-! The scanner (40_scanner.md): what `scan` is as a function, its two step rules, and the run of `SCAN`. The run
length of `v` at an address is followed byte by byte, as the look-ahead of phase `COUNT` does. -/

namespace Sys2Proof.Machine

/-! The run length at an address (R101). -/

/-- The run at `a` goes on with the run at `a + 1` as long as the byte there is `v`. -/
theorem runLength_drop (v : Byte) (b : Buffer) (a : Nat) :
    runLength v (b.drop a) = if memRead b a = some v then runLength v (b.drop (a + 1)) + 1 else 0 := by
  rw [memRead, ← List.head?_drop, ← List.tail_drop]
  cases b.drop a <;> simp [runLength]

theorem getElem?_of_lt_runLength {v : Byte} {b : Buffer} {j : Nat} (h : j < runLength v b) : b[j]? = some v := by
  induction b generalizing j with
  | nil => cases h
  | cons x xs ih =>
    unfold runLength at h
    split at h
    next hx =>
      cases j with
      | zero => exact congrArg some hx
      | succ j => exact ih (Nat.lt_of_succ_lt_succ h)
    next => cases h

theorem getElem?_runLength_ne (v : Byte) (b : Buffer) : b[runLength v b]? ≠ some v := by
  induction b with
  | nil => nofun
  | cons x xs ih =>
    unfold runLength
    split
    next => exact ih
    next hx => simpa using hx

/-- The byte after the run ends it. -/
theorem memRead_runLength_ne (v : Byte) (b : Buffer) (a : Nat) :
    memRead b (a + runLength v (b.drop a)) ≠ some v := by
  rw [memRead, ← List.getElem?_drop]
  exact getElem?_runLength_ne v (b.drop a)

/-- `scan` has a value where there is a byte at `start`, and it is the run length of that byte there. -/
theorem scanFn_eq_some_iff {buf : Buffer} {start n : Nat} :
    scanFn buf start = some n ↔ ∃ v, memRead buf start = some v ∧ runLength v (buf.drop start) = n := by
  rw [memRead, ← List.head?_drop, scanFn]
  cases buf.drop start <;> simp [runLength]

theorem scanFn_eq_none_iff {buf : Buffer} {start : Nat} : scanFn buf start = none ↔ buf.length ≤ start := by
  rw [← List.drop_eq_nil_iff, scanFn]
  cases buf.drop start <;> simp

/-- Settles O48: the bytes of the run equal the one at `start`, and the byte after it, which a longer run would
need, does not. -/
theorem scanIsTheGreatestRun : Obligations.ScanIsTheGreatestRun := by
  refine fun buf start => ⟨scanFn_eq_none_iff.mpr, fun hlt => ?_⟩
  obtain ⟨v, hv⟩ := exists_memRead_of_lt hlt
  have hpos : 1 ≤ runLength v (buf.drop start) := by rw [runLength_drop, if_pos hv]; omega
  have hrun (j : Nat) (hj : j < runLength v (buf.drop start)) : buf[start + j]? = some v :=
    List.getElem?_drop ▸ getElem?_of_lt_runLength hj
  refine ⟨_, scanFn_eq_some_iff.mpr ⟨v, hv, rfl⟩, hpos, ?_, fun j hj => (hrun j hj).trans hv.symm, ?_⟩
  · have hlast := lt_length_of_memRead (hrun _ (Nat.sub_one_lt_of_lt hpos))
    omega
  · intro m _ heq
    by_contra hm
    exact memRead_runLength_ne v buf start ((heq _ (Nat.lt_of_not_le hm)).trans hv)

/-! The two step rules (R102, R103). -/

/-- Settles O23: the step rule is `startRun`, which loads the byte at `RP`. -/
theorem scanHeadStep : Obligations.ScanHeadStep := by
  intro s b p v hin hb hp hv
  rw [step_blockIn hin]
  exact startRun_of hb hp hv

section
variable {o : Operation} {s : State} {b : Buffer} {p n : Nat} {v : Byte}

/-- An equal byte at `RP + ACC` adds 1 to `ACC`, in the two operations that count (R103, R138). -/
theorem step_count_equal (ho : o ∈ [Operation.scan, .encode]) (hin : blockIn o .count s) (hb : s.inp = some b)
    (hp : s.rp = some p) (hn : s.acc = some n) (hv : s.val = some v) (heq : memRead b (p + n) = some v)
    (hcap : within s.cap (n + 1)) : step s = .next { s with acc := some (n + 1) } := by
  have hrule : ∃ ended, answer (stepRule o .count s) = countRun s ended := by
    cases o with
    | scan | encode => exact ⟨_, rfl⟩
    | vlenc | vldec | decode => exact absurd ho (by decide)
  obtain ⟨ended, hended⟩ := hrule
  rw [step_blockIn hin, hended, countRun_of ended hb hp hn hv, if_pos heq, addAcc_of _ hn hcap]

/-- Phase `COUNT` takes one step for each byte of the run from `RP + ACC` on, and has counted them all then. -/
theorem stepsTo_count (ho : o ∈ [Operation.scan, .encode]) (hin : blockIn o .count s) (hb : s.inp = some b)
    (hp : s.rp = some p) (hn : s.acc = some n) (hv : s.val = some v) (hcap : within s.cap b.length) :
    stepsTo (runLength v (b.drop (p + n))) s =
      some { s with acc := some (n + runLength v (b.drop (p + n))) } := by
  induction hm : runLength v (b.drop (p + n)) generalizing s n with
  | zero => rw [Nat.add_zero, ← hn]; rfl
  | succ m ih =>
    rw [runLength_drop] at hm
    split at hm
    next heq =>
      have hlt := lt_length_of_memRead heq
      have hstep := step_count_equal ho hin hb hp hn hv heq (exceeds_le hcap (by omega))
      have hrest := ih (s := { s with acc := some (n + 1) }) hin hb hp rfl hv hcap (Nat.succ.inj hm)
      rw [Nat.add_comm m 1, ← Nat.add_assoc]
      exact stepsTo_trans (stepsTo_one hstep) hrest
    next => cases hm

end

/-- Settles O24: the step rule is `countRun`, which adds 1 to `ACC` or ends the operation. -/
theorem scanCountStep : Obligations.ScanCountStep := by
  intro s b p n v hin hb hp hn hv
  refine ⟨step_count_equal (by decide) hin hb hp hn hv, fun hne => ?_⟩
  rw [step_blockIn hin]
  exact (countRun_of _ hb hp hn hv).trans (if_neg hne)

/-- `SCAN` counts the rest of the run and ends with the count as its result. -/
theorem stepsTo_scanCount {s : State} {b : Buffer} {p n : Nat} {v : Byte} (hin : blockIn .scan .count s)
    (hb : s.inp = some b) (hp : s.rp = some p) (hn : s.acc = some n) (hv : s.val = some v)
    (hcap : within s.cap b.length) :
    stepsTo (1 + runLength v (b.drop (p + n))) s =
      some { s with
        acc := some (n + runLength v (b.drop (p + n))), rlen := some (n + runLength v (b.drop (p + n))),
        st := .done } := by
  rw [Nat.add_comm 1]
  refine stepsTo_trans (stepsTo_count (by decide) hin hb hp hn hv hcap) (stepsTo_one ?_)
  obtain ⟨-, hends⟩ :=
    scanCountStep { s with acc := some (n + runLength v (b.drop (p + n))) } b p _ v hin hb hp rfl hv
  exact hends (Nat.add_assoc .. ▸ memRead_runLength_ne v b (p + n))

/-- Settles O41: one step of phase `HEAD`, one for each further byte of the run, and one that ends it. -/
theorem scanRunsToItsResult : Obligations.ScanRunsToItsResult := by
  intro s buf start n hb hsilent hcap hscan
  obtain ⟨v, hv, hn⟩ := scanFn_eq_some_iff.mp hscan
  rw [runLength_drop, if_pos hv, Nat.add_comm] at hn
  subst hn
  obtain ⟨hlaunch, -⟩ := launchStartsTheOperation s hb
  have hhead :=
    scanHeadStep (startOperation .scan .head buf start 0 s) buf start v ⟨hsilent, rfl, rfl, rfl⟩ rfl rfl hv
  have hrun := stepsTo_trans (stepsTo_one hhead)
    (stepsTo_scanCount ⟨hsilent, rfl, rfl, rfl⟩ rfl rfl rfl rfl hcap)
  exact ⟨_, _, hlaunch buf start (lt_length_of_memRead hv) hcap, hrun, rfl, rfl, rfl, rfl, rfl, rfl,
    readResult_scan rfl rfl rfl⟩

end Sys2Proof.Machine
end

section
/-! `vlenc` and `vldec` as functions (41_varint_length.md R112, R113, R117, R121), and the recursions the rules write,
with positions in place of rests of a buffer (42_encoder.md R135, 43_decoder.md R151). -/

namespace Sys2Proof.Machine

/-! The length encoder (R112, R113). -/

/-- Every length is so many chunks of 127 and a terminator in 1 to 127. -/
theorem exists_chunks {n : Nat} (hn : 1 ≤ n) : ∃ k t, n = Config.chunk * k + t ∧ 1 ≤ t ∧ t ≤ 127 :=
  ⟨(n - 1) / 127, n - 127 * ((n - 1) / 127), by unfold Config.chunk; omega, by omega, by omega⟩

theorem vlencFn_terminator {n : Nat} (hn : n ≤ 127) : vlencFn n = [lengthByte n] := by
  cases n with
  | zero => rfl
  | succ n => simp [vlencFn, vlencLoop, (overChunk_false_iff (n + 1)).mpr hn]

theorem vlencFn_continuation {n : Nat} (hn : 127 < n) : vlencFn n = [0xFF] ++ vlencFn (n - 127) := by
  obtain ⟨k, t, hless, ht, ht'⟩ := exists_chunks (Nat.sub_pos_of_lt hn)
  have hchunks : n = Config.chunk * (k + 1) + t := by unfold Config.chunk at hless ⊢; omega
  rw [hless, hchunks, vlencFn_chunks _ ht ht', vlencFn_chunks _ ht ht', List.replicate_succ]
  rfl

/-- Settles O50: with `L = 127 k + t` and `t` in 1 to 127, `k` is the quotient of the rule and `t` its terminator. -/
theorem vlencClosedForm : Obligations.VlencClosedForm := by
  intro n hn
  obtain ⟨k, t, rfl, ht, ht'⟩ := exists_chunks hn
  have hk : (Config.chunk * k + t - 1) / 127 = k := by unfold Config.chunk; omega
  have hterm : Config.chunk * k + t - 127 * k = t := Nat.add_sub_cancel_left ..
  rw [hk, hterm, vlencFn_chunks k ht ht']
  exact ⟨rfl, ht, ht', by simp, by unfold Config.chunk; omega⟩

/-- What `vlenc` writes are the length bytes of a run record of that length (R75, R76). -/
theorem vlencFn_eq_lengthBytes {n : Nat} (hn : 1 ≤ n) :
    ∃ (conts : List Field) (t : Field),
      vlencFn n = conts.map markedByte ++ [fieldByte t] ∧ n = Config.chunk * conts.length + t.toNat := by
  obtain ⟨k, t, rfl, ht, ht'⟩ := exists_chunks hn
  have hfield : (BitVec.ofNat 7 t).toNat = t := Nat.mod_eq_of_lt (by omega)
  have hterm : lengthByte t = fieldByte (BitVec.ofNat 7 t) := by
    apply BitVec.eq_of_toNat_eq
    rw [fieldByte_toNat, hfield]
    exact Nat.mod_eq_of_lt (by omega)
  refine ⟨List.replicate k 0x7F, BitVec.ofNat 7 t, ?_, by rw [hfield, List.length_replicate]⟩
  rw [vlencFn_chunks k ht ht', hterm, List.map_replicate]
  rfl

/-! The length decoder (R117). -/

theorem drop_eq_cons_of_memRead {b : Buffer} {a : Nat} {x : Byte} (h : memRead b a = some x) :
    b.drop a = x :: b.drop (a + 1) := by
  obtain ⟨hlt, rfl⟩ := List.getElem?_eq_some_iff.mp h
  exact List.drop_eq_getElem_cons hlt

theorem vldecLoop_cons_high {x : Byte} (xs : Buffer) (p acc : Nat) (h : highBit x = true) :
    vldecLoop (x :: xs) p acc = vldecLoop xs (p + 1) (acc + Config.chunk) := by
  simp [vldecLoop, h]

theorem vldecLoop_cons_low {x : Byte} (xs : Buffer) (p acc : Nat) (h : highBit x = false) :
    vldecLoop (x :: xs) p acc = some (acc + x.toNat, p + 1) := by
  simp [vldecLoop, h, lowField_of_low x ((highBit_false_iff x).mp h)]

/-- The position in the buffer is only counted along. -/
theorem vldecLoop_add (xs : Buffer) (q p acc : Nat) :
    vldecLoop xs (q + p) acc = (vldecLoop xs p acc).map fun r => (r.1, q + r.2) := by
  induction xs generalizing p acc with
  | nil => rfl
  | cons x xs ih =>
    cases hx : highBit x with
    | true => rw [vldecLoop_cons_high xs _ _ hx, vldecLoop_cons_high xs _ _ hx, Nat.add_assoc, ih]
    | false => rw [vldecLoop_cons_low xs _ _ hx, vldecLoop_cons_low xs _ _ hx]; rfl

/-- `vldec` at a position is `vldec` at the start of the bytes from there on. -/
theorem vldecFn_drop (b : Buffer) (p : Nat) :
    vldecFn b p = (vldecFn (b.drop p) 0).map fun r => (r.1, p + r.2) := vldecLoop_add (b.drop p) p 0 0

/-- Continuation bytes and a terminator at a position have a length, whatever follows. -/
theorem vldecFn_of_drop_eq {b rest : Buffer} {p : Nat} {conts : List Field} {t : Field}
    (h : b.drop p = conts.map markedByte ++ fieldByte t :: rest) :
    vldecFn b p = some (Config.chunk * conts.length + t.toNat, p + (conts.length + 1)) := by
  rw [vldecFn_drop, h, vldecFn_record 0]
  rfl

/-- Continuation bytes up to the end of the buffer have none. -/
theorem vldecFn_of_drop_eq_conts {b : Buffer} {p : Nat} {conts : List Field} (h : b.drop p = conts.map markedByte) :
    vldecFn b p = none := by
  rw [vldecFn_drop, h, vldecFn_conts]
  rfl

/-- Settles O51: what `vlenc` writes are length bytes that add up to `L`. -/
theorem vldecUndoesVlenc : Obligations.VldecUndoesVlenc := by
  intro pre rest n hn
  obtain ⟨conts, t, hbytes, hsum⟩ := vlencFn_eq_lengthBytes hn
  have hdrop : (pre ++ vlencFn n ++ rest).drop pre.length = conts.map markedByte ++ fieldByte t :: rest := by
    simp [hbytes]
  rw [vldecFn_of_drop_eq hdrop, ← hsum, hbytes]
  simp

/-! The recursions at a position of a buffer. -/

theorem vldecLoop_drop (b : Buffer) (p acc : Nat) :
    vldecLoop (b.drop p) p acc =
      match b[p]? with
      | none => none
      | some x =>
        if 0x80 ≤ x.toNat then vldecLoop (b.drop (p + 1)) (p + 1) (acc + 127)
        else some (acc + x.toNat, p + 1) := by
  cases hx : b[p]? with
  | none => rw [List.drop_eq_nil_of_le ((memRead_none_iff b p).mp hx)]; rfl
  | some x =>
    rw [drop_eq_cons_of_memRead hx]
    cases hhigh : highBit x with
    | true => exact (vldecLoop_cons_high _ p acc hhigh).trans (if_pos ((highBit_iff x).mp hhigh)).symm
    | false =>
      have hlow : ¬ 0x80 ≤ x.toNat := (highBit_iff x).not.mp (Bool.not_eq_true _ ▸ hhigh)
      exact (vldecLoop_cons_low _ p acc hhigh).trans (if_neg hlow).symm

theorem encodeFn_drop {b : Buffer} {i n : Nat} {v : Byte} (hv : memRead b i = some v) (hn : scanFn b i = some n) :
    encodeFn (b.drop i) = runRecord v n ++ encodeFn (b.drop (i + n)) := by
  obtain ⟨w, hw, hrun⟩ := scanFn_eq_some_iff.mp hn
  obtain rfl := Option.some.inj (hv.symm.trans hw)
  rw [runLength_drop, if_pos hv] at hrun
  rw [drop_eq_cons_of_memRead hv, encodeFn_cons, hrun, List.drop_drop, ← hrun]
  congr 3
  omega

theorem runRecord_eq (v : Byte) (n : Nat) :
    runRecord v n = if n = 1 ∧ v.toNat ≤ 0x7F then [v] else [v ||| 0x80] ++ vlencFn n := by
  simp only [runRecord, literalRun_iff]
  rfl

section
variable {b : Buffer} {i : Nat} {x : Byte}

theorem decodeFn_drop_low (hx : memRead b i = some x) (hlow : highBit x = false) :
    decodeFn (b.drop i) = (decodeFn (b.drop (i + 1))).map (x :: ·) := by
  rw [drop_eq_cons_of_memRead hx, decodeFn_cons_low _ hlow]

theorem decodeFn_drop_high_none (hx : memRead b i = some x) (hhigh : highBit x = true)
    (hlen : vldecFn b (i + 1) = none) : decodeFn (b.drop i) = none := by
  rw [vldecFn_drop, Option.map_eq_none_iff] at hlen
  rw [drop_eq_cons_of_memRead hx, decodeFn_cons_high_none hhigh hlen]

theorem decodeFn_drop_high_some {n next : Nat} (hx : memRead b i = some x) (hhigh : highBit x = true)
    (hlen : vldecFn b (i + 1) = some (n, next)) :
    decodeFn (b.drop i) = (decodeFn (b.drop next)).map (List.replicate n (clearMark x) ++ ·) := by
  rw [vldecFn_drop, Option.map_eq_some_iff] at hlen
  obtain ⟨⟨m, k⟩, hlen, hnext⟩ := hlen
  obtain ⟨rfl, rfl⟩ := Prod.mk.inj hnext
  rw [drop_eq_cons_of_memRead hx, decodeFn_cons_high_some hhigh hlen, List.drop_drop]

end

/-- Settles O49: each equation of the rules is the recursion of a function on the rest of the buffer at a position. -/
theorem functionsMeetTheirRecursions : Obligations.FunctionsMeetTheirRecursions := by
  refine ⟨fun n => ?_, vldecLoop_drop, fun buf i hi => ?_, fun buf i v n hv hn => ?_, fun buf i hi => ?_,
    fun buf i x hx => ⟨fun hlow => ?_, fun hhigh => ?_, fun n next hhigh => ?_⟩⟩
  · split
    next hn => exact vlencFn_continuation hn
    next hn => exact vlencFn_terminator (Nat.not_lt.mp hn)
  · rw [List.drop_eq_nil_of_le hi, encodeFn_nil]
  · rw [encodeFn_drop hv hn, runRecord_eq]
  · rw [List.drop_eq_nil_of_le hi, decodeFn_nil]
  · exact decodeFn_drop_low hx ((highBit_false_iff x).mpr hlow)
  · exact decodeFn_drop_high_none hx ((highBit_iff x).mpr hhigh)
  · exact decodeFn_drop_high_some hx ((highBit_iff x).mpr hhigh)

end Sys2Proof.Machine
end

section
/-! The operation `VLENC` on the machine (41_varint_length.md R112, R114, R116): what the length encoder does in one
step, as a lemma about the shared operation, and its run. -/

namespace Sys2Proof.Machine

section
variable {s : State} {n : Nat} {out : Buffer}

/-! One length byte (R114). -/

theorem emitLength_continuation (last : State → StepOutcome) (hn : s.acc = some n) (hout : s.out = some out)
    (hcap : within s.cap (out.length + 1)) (hover : 127 < n) :
    emitLength s last = .next { s with out := some (out ++ [0xFF]), acc := some (n - 127) } := by
  rw [emitLength_of last hn, if_pos ((overChunk_iff n).mpr hover), append_of _ _ hout hcap]
  rfl

theorem emitLength_terminator (last : State → StepOutcome) (hn : s.acc = some n) (hout : s.out = some out)
    (hcap : within s.cap (out.length + 1)) (hle : n ≤ 127) :
    emitLength s last = last { s with out := some (out ++ [BitVec.ofNat 8 n]) } := by
  rw [emitLength_of last hn, if_neg ((overChunk_iff n).not.mpr (Nat.not_lt.mpr hle)), append_of _ _ hout hcap]
  rfl

/-- A continuation byte in the two operations that write length bytes (R114, R139). -/
theorem step_len_continuation {o : Operation} (ho : o ∈ [Operation.vlenc, .encode]) (hin : blockIn o .len s)
    (hn : s.acc = some n) (hout : s.out = some out) (hcap : within s.cap (out.length + 1)) (hover : 127 < n) :
    step s = .next { s with out := some (out ++ [0xFF]), acc := some (n - 127) } := by
  have hrule : ∃ last, answer (stepRule o .len s) = emitLength s last := by
    cases o with
    | vlenc | encode => exact ⟨_, rfl⟩
    | scan | vldec | decode => exact absurd ho (by decide)
  obtain ⟨last, hlast⟩ := hrule
  rw [step_blockIn hin, hlast, emitLength_continuation last hn hout hcap hover]

/-- All continuation bytes of a length, one a step. -/
theorem stepsTo_len_continuations {o : Operation} {k t : Nat} (ho : o ∈ [Operation.vlenc, .encode])
    (hin : blockIn o .len s) (hn : s.acc = some (Config.chunk * k + t)) (ht : 1 ≤ t) (hout : s.out = some out)
    (hcap : within s.cap (out.length + k)) :
    stepsTo k s = some { s with out := some (out ++ List.replicate k 0xFF), acc := some t } := by
  induction k generalizing s out with
  | zero =>
    rw [Nat.mul_zero, Nat.zero_add] at hn
    rw [List.replicate_zero, List.append_nil, ← hout, ← hn]
    rfl
  | succ k ih =>
    have hover : 127 < Config.chunk * (k + 1) + t := by unfold Config.chunk; omega
    have hless : Config.chunk * (k + 1) + t - 127 = Config.chunk * k + t := by unfold Config.chunk; omega
    have hstep := step_len_continuation ho hin hn hout (exceeds_le hcap (by omega)) hover
    have hrest := ih (s := { s with out := some (out ++ [0xFF]), acc := some (Config.chunk * k + t) }) hin rfl rfl
      (exceeds_le hcap (by simp; omega))
    rw [hless] at hstep
    rw [List.replicate_succ, List.append_cons, Nat.add_comm k 1]
    exact stepsTo_trans (stepsTo_one hstep) hrest

end

/-- Settles O25: the step rule is `emitLength`, after whose terminator `VLENC` is done. -/
theorem vlencStep : Obligations.VlencStep := by
  intro s n o hin hn _ hout hcap
  refine ⟨step_len_continuation (by decide) hin hn hout hcap, fun hle => ?_⟩
  rw [step_blockIn hin]
  exact emitLength_terminator _ hn hout hcap hle

/-- The run of `VLENC` from `ACC = 127 k + t`: `k` steps to `ACC = t`, and one for the terminator `t`. -/
theorem stepsTo_vlenc {s : State} {k t : Nat} {out : Buffer} (hin : blockIn .vlenc .len s)
    (hn : s.acc = some (Config.chunk * k + t)) (ht : 1 ≤ t) (ht' : t ≤ 127) (hout : s.out = some out)
    (hcap : within s.cap (out.length + (k + 1))) :
    stepsTo (k + 1) s =
      some { s with out := some (out ++ vlencFn (Config.chunk * k + t)), acc := some t, st := .done } := by
  have hconts := stepsTo_len_continuations (by decide) hin hn ht hout (exceeds_le hcap (by omega))
  obtain ⟨-, hlast⟩ := vlencStep { s with out := some (out ++ List.replicate k 0xFF), acc := some t } t _
    hin rfl ht rfl (by simpa [Nat.add_assoc] using hcap)
  rw [vlencFn_chunks k ht ht', ← List.append_assoc]
  exact stepsTo_trans hconts (stepsTo_one (hlast ht'))

/-- Settles O42: the launch puts `L` into `ACC` and nothing into `OUT`, and `VLENC` runs from there. -/
theorem vlencRunsToItsResult : Obligations.VlencRunsToItsResult := by
  intro s n hb hsilent hn hcap
  obtain ⟨-, hlaunch, -⟩ := launchStartsTheOperation s hb
  have hstart := hlaunch n hn hcap
  obtain ⟨k, t, rfl, ht, ht'⟩ := exists_chunks hn
  have hsteps : lengthBytes (Config.chunk * k + t) = k + 1 := by unfold lengthBytes Config.chunk; omega
  have hroom : within s.cap (0 + (k + 1)) := exceeds_le hcap (by unfold Config.chunk; omega)
  have hrun := stepsTo_vlenc (s := startOperation .vlenc .len [] 0 (Config.chunk * k + t) s)
    ⟨hsilent, rfl, rfl, rfl⟩ rfl ht ht' rfl hroom
  rw [hsteps]
  exact ⟨_, _, hstart, hrun, rfl, rfl, rfl, rfl, readResult_output (o := .vlenc) rfl (by decide) rfl rfl⟩

end Sys2Proof.Machine
end

section
/-! The operation `VLDEC` on the machine (41_varint_length.md R117, R119, R122; 60_exceptions.md R196). The length
bytes are the instructions `CONT` and `TERM` (log 10), which `DECODE` reads too; a run over them is a run over the
continuation bytes that are there, and then the step at what follows: a terminator or the end of the input. -/

namespace Sys2Proof.Machine

section
variable {s : State} {o : Operation} {b : Buffer} {p n : Nat}

/-! One length byte as an instruction (R160, R161, R119). -/

theorem exec_cont (x : Field) (hread : readsByte [.vldec, .decode] .len s = true) (hp : s.rp = some p)
    (hn : s.acc = some n) (hcap : within s.cap (n + 127)) :
    exec (.cont x) s = .next { s with rp := some (p + 1), acc := some (n + 127) } :=
  (whileReading_of _ hread).trans ((advance_of _ hp).trans (addAcc_of _ hn hcap))

theorem exec_cont_full (x : Field) (hread : readsByte [.vldec, .decode] .len s = true) (hp : s.rp = some p)
    (hn : s.acc = some n) (hcap : ¬ within s.cap (n + 127)) :
    exec (.cont x) s = .next (raise .capacityExceeded s) :=
  (whileReading_of _ hread).trans ((advance_of _ hp).trans (addAcc_full _ hn (Bool.not_eq_false _ ▸ hcap)))

theorem exec_term_vldec (t : Field) (hread : readsByte [.vldec, .decode] .len s = true)
    (hop : s.op = Operation.code .vldec) (hp : s.rp = some p) (hn : s.acc = some n)
    (hcap : within s.cap (n + t.toNat)) :
    exec (.term t) s = .next
      { s with
        rp := some (p + 1), acc := some (n + t.toNat), rlen := some (n + t.toNat), rnext := some (p + 1),
        st := .done } := by
  refine (whileReading_of _ hread).trans ((advance_of _ hp).trans ?_)
  exact (addAcc_of (s := { s with rp := some (p + 1) }) _ hn hcap).trans (if_pos hop)

theorem exec_term_full (t : Field) (hread : readsByte [.vldec, .decode] .len s = true) (hp : s.rp = some p)
    (hn : s.acc = some n) (hcap : ¬ within s.cap (n + t.toNat)) :
    exec (.term t) s = .next (raise .capacityExceeded s) :=
  (whileReading_of _ hread).trans ((advance_of _ hp).trans (addAcc_full _ hn (Bool.not_eq_false _ ▸ hcap)))

theorem decodeByte_len_high {x : Byte} (h : highBit x = true) : decodeByte .len x = .ok (.cont (lowField x)) := by
  rw [decodeByte_len, if_pos h]

theorem decodeByte_len_low {x : Byte} (h : highBit x = false) : decodeByte .len x = .ok (.term (lowField x)) := by
  rw [decodeByte_len, h]; rfl

/-! The step in phase `LEN` of the two operations that read length bytes. -/

theorem op_of_blockIn {ph : Phase} (hin : blockIn o ph s) : s.op = o.code := by
  obtain ⟨-, -, hop, -⟩ := hin
  exact hop

theorem readsByte_of_blockIn (ho : o ∈ [Operation.vldec, .decode]) (hin : blockIn o .len s) :
    readsByte [.vldec, .decode] .len s = true := by
  obtain ⟨-, hbusy, hop, hph⟩ := hin
  exact readsByte_iff.mpr ⟨hbusy, ⟨o, ho, hop.symm⟩, hph⟩

theorem step_lengthByte {x : Byte} {i : Instr} (ho : o ∈ [Operation.vldec, .decode]) (hin : blockIn o .len s)
    (hb : s.inp = some b) (hp : s.rp = some p) (hx : memRead b p = some x) (hi : decodeByte .len x = .ok i) :
    step s = exec i s := by
  obtain ⟨-, hrun⟩ := stepRunsTheDecodedInstruction s
  exact hrun o .len b p x i hin (by revert ho; cases o <;> decide) hb hp hx hi

/-- The end of the input where a length byte is needed (R119). -/
theorem step_vldec_end (hin : blockIn .vldec .len s) (hb : s.inp = some b) (hp : s.rp = some p)
    (hend : memRead b p = none) : step s = .next (raise .malformedStream s) := by
  rw [step_blockIn hin]
  exact congrArg answer (fetchByte_end (ph := .len) (vldecEnd s) hb hp hend)

/-- What an error entered by a step leaves (R197). -/
theorem failedWith_raise {c : BitVec 3} (e : ErrCode) (hop : s.op = c) : failedWith c e s (raise e s) :=
  hop ▸ failedWith_failLaunch s.op e s

/-! Continuation bytes one after the other. -/

theorem memRead_of_drop_eq {x : Byte} {rest : Buffer} (h : b.drop p = x :: rest) :
    memRead b p = some x ∧ b.drop (p + 1) = rest := by
  rw [memRead, ← List.head?_drop, ← List.tail_drop, h]
  exact ⟨rfl, rfl⟩

theorem add_chunk_mul_succ (n k : Nat) : n + Config.chunk * (k + 1) = n + 127 + Config.chunk * k := by
  unfold Config.chunk; omega

/-- Continuation bytes whose sum is within `CAP` take one step each. -/
theorem stepsTo_conts {conts : List Field} {rest : Buffer} (ho : o ∈ [Operation.vldec, .decode])
    (hin : blockIn o .len s) (hb : s.inp = some b) (hp : s.rp = some p) (hn : s.acc = some n)
    (hdrop : b.drop p = conts.map markedByte ++ rest) (hcap : within s.cap (n + Config.chunk * conts.length)) :
    stepsTo conts.length s =
      some { s with rp := some (p + conts.length), acc := some (n + Config.chunk * conts.length) } := by
  induction conts generalizing s p n with
  | nil =>
    rw [List.length_nil, Nat.mul_zero, Nat.add_zero, Nat.add_zero, ← hp, ← hn]
    rfl
  | cons x conts ih =>
    obtain ⟨hx, hdrop⟩ := memRead_of_drop_eq hdrop
    rw [List.length_cons, add_chunk_mul_succ] at hcap
    have hstep : step s = .next { s with rp := some (p + 1), acc := some (n + 127) } := by
      rw [step_lengthByte ho hin hb hp hx (decodeByte_len_markedByte x)]
      exact exec_cont x (readsByte_of_blockIn ho hin) hp hn (exceeds_le hcap (by omega))
    have hrest := ih (s := { s with rp := some (p + 1), acc := some (n + 127) }) hin hb rfl rfl hdrop hcap
    rw [List.length_cons, add_chunk_mul_succ, Nat.add_comm conts.length 1, ← Nat.add_assoc]
    exact stepsTo_trans (stepsTo_one hstep) hrest

/-- Continuation bytes whose sum is not: one of them raises the error. -/
theorem exists_stepsTo_conts_full {conts : List Field} {rest : Buffer} (ho : o ∈ [Operation.vldec, .decode])
    (hin : blockIn o .len s) (hb : s.inp = some b) (hp : s.rp = some p) (hn : s.acc = some n)
    (hdrop : b.drop p = conts.map markedByte ++ rest) (hfrom : within s.cap n)
    (hcap : ¬ within s.cap (n + Config.chunk * conts.length)) :
    ∃ k, stepsTo k s = some (raise .capacityExceeded s) := by
  induction conts generalizing s p n with
  | nil => exact absurd hfrom hcap
  | cons x conts ih =>
    obtain ⟨hx, hdrop⟩ := memRead_of_drop_eq hdrop
    have hstep := step_lengthByte ho hin hb hp hx (decodeByte_len_markedByte x)
    have hread := readsByte_of_blockIn ho hin
    by_cases hfits : within s.cap (n + 127)
    · rw [List.length_cons, add_chunk_mul_succ] at hcap
      rw [exec_cont x hread hp hn hfits] at hstep
      obtain ⟨k, hrest⟩ :=
        ih (s := { s with rp := some (p + 1), acc := some (n + 127) }) hin hb rfl rfl hdrop hfits hcap
      exact ⟨1 + k, stepsTo_trans (stepsTo_one hstep) hrest⟩
    · exact ⟨1, stepsTo_one (hstep.trans (exec_cont_full x hread hp hn hfits))⟩

end

/-- Settles O26: a byte with bit 7 set runs as `CONT`, one without as `TERM`. -/
theorem vldecStep : Obligations.VldecStep := by
  intro s b p n hin hb hp hn
  have hread := readsByte_of_blockIn (by decide) hin
  have hop := op_of_blockIn hin
  refine ⟨fun hend => ⟨_, step_vldec_end hin hb hp ((memRead_none_iff b p).mpr hend), failedWith_raise _ hop⟩,
    fun x hx => ⟨fun hhigh hcap => ?_, fun hlow hcap => ?_⟩⟩
  · rw [step_lengthByte (by decide) hin hb hp hx (decodeByte_len_high ((highBit_iff x).mpr hhigh))]
    exact exec_cont _ hread hp hn hcap
  · rw [step_lengthByte (by decide) hin hb hp hx (decodeByte_len_low ((highBit_false_iff x).mpr hlow))]
    rw [← lowField_of_low x hlow] at hcap ⊢
    exact exec_term_vldec _ hread hop hp hn hcap

/-! The run of `VLDEC` (R122). -/

/-- Any bytes are continuation bytes up to a terminator or up to the end. -/
theorem exists_lengthBytes (e : Buffer) :
    ∃ conts : List Field, e = conts.map markedByte ∨
      ∃ (t : Field) (rest : Buffer), e = conts.map markedByte ++ fieldByte t :: rest := by
  induction e with
  | nil => exact ⟨[], .inl rfl⟩
  | cons x xs ih =>
    obtain ⟨t, rfl⟩ | ⟨v, rfl⟩ := eq_fieldByte_or_eq_markedByte x
    · exact ⟨[], .inr ⟨t, xs, rfl⟩⟩
    · obtain ⟨conts, rfl | ⟨t, rest, rfl⟩⟩ := ih
      · exact ⟨v :: conts, .inl rfl⟩
      · exact ⟨v :: conts, .inr ⟨t, rest, rfl⟩⟩

section
variable {s : State} {b rest : Buffer} {p : Nat} {conts : List Field} {t : Field}

/-- The byte behind continuation bytes. -/
theorem memRead_behind (h : b.drop p = conts.map markedByte ++ rest) : memRead b (p + conts.length) = rest.head? := by
  rw [memRead, ← List.head?_drop, ← List.drop_drop, h, List.drop_left' (by simp)]

variable (hin : blockIn .vldec .len s) (hb : s.inp = some b) (hp : s.rp = some p) (hn : s.acc = some 0)
include hin hb hp hn

/-- A length within `CAP` is the result, after one step for each of its bytes. -/
theorem stepsTo_vldec (hdrop : b.drop p = conts.map markedByte ++ fieldByte t :: rest)
    (hcap : within s.cap (Config.chunk * conts.length + t.toNat)) :
    stepsTo (conts.length + 1) s = some
      { s with
        rp := some (p + conts.length + 1), acc := some (Config.chunk * conts.length + t.toNat),
        rlen := some (Config.chunk * conts.length + t.toNat), rnext := some (p + conts.length + 1), st := .done } := by
  have hmem : Operation.vldec ∈ [Operation.vldec, .decode] := by decide
  have hconts := stepsTo_conts hmem hin hb hp hn hdrop (exceeds_le hcap (by omega))
  rw [Nat.zero_add] at hconts
  refine stepsTo_trans hconts (stepsTo_one ?_)
  refine Eq.trans (step_lengthByte hmem hin hb rfl (memRead_behind hdrop) (decodeByte_len_fieldByte t)) ?_
  exact exec_term_vldec t (readsByte_of_blockIn hmem hin) (op_of_blockIn hin) rfl rfl hcap

/-- A length over `CAP` raises the error at one of its bytes. -/
theorem exists_stepsTo_vldec_full (hdrop : b.drop p = conts.map markedByte ++ fieldByte t :: rest)
    (hcap : ¬ within s.cap (Config.chunk * conts.length + t.toNat)) :
    ∃ k, stepsTo k s = some (raise .capacityExceeded s) := by
  have hmem : Operation.vldec ∈ [Operation.vldec, .decode] := by decide
  by_cases hfits : within s.cap (0 + Config.chunk * conts.length)
  · have hconts := stepsTo_conts hmem hin hb hp hn hdrop hfits
    refine ⟨_, stepsTo_trans hconts (stepsTo_one ?_)⟩
    refine Eq.trans (step_lengthByte hmem hin hb rfl (memRead_behind hdrop) (decodeByte_len_fieldByte t)) ?_
    exact exec_term_full t (readsByte_of_blockIn hmem hin) rfl rfl (Nat.zero_add _ ▸ hcap)
  · exact exists_stepsTo_conts_full hmem hin hb hp hn hdrop (exceeds_zero s.cap) hfits

/-- Continuation bytes up to the end of the input are read, and then the error is raised. -/
theorem stepsTo_vldec_malformed (hdrop : b.drop p = conts.map markedByte)
    (hcap : within s.cap (Config.chunk * conts.length)) :
    stepsTo (conts.length + 1) s = some (raise .malformedStream s) := by
  rw [← List.append_nil (conts.map markedByte)] at hdrop
  have hconts := stepsTo_conts (by decide) hin hb hp hn hdrop (Nat.zero_add _ ▸ hcap)
  exact stepsTo_trans hconts (stepsTo_one (step_vldec_end hin hb rfl (memRead_behind hdrop)))

end

/-- Settles O43: the bytes at `pos` are continuation bytes and then a terminator or the end of the buffer, which says
what `vldec` gives; the launch leaves `VLDEC` at the first of them. -/
theorem vldecRunsToItsResult : Obligations.VldecRunsToItsResult := by
  intro s buf pos hb hsilent hbuf hpos
  obtain ⟨-, -, hlaunch, -⟩ := launchStartsTheOperation s hb
  have hstart := hlaunch buf pos hbuf hpos
  have hin : blockIn .vldec .len (startOperation .vldec .len buf pos 0 s) := ⟨hsilent, rfl, rfl, rfl⟩
  obtain ⟨conts, hdrop | ⟨t, rest, hdrop⟩⟩ := exists_lengthBytes (buf.drop pos)
  · have hlen : buf.length - pos = conts.length := by simpa using congrArg List.length hdrop
    rw [vldecFn_of_drop_eq_conts hdrop, hlen]
    refine ⟨nofun, nofun, fun _ hcap => ?_, fun _ hcap => ?_⟩
    · exact ⟨_, _, hstart, stepsTo_vldec_malformed hin rfl rfl rfl hdrop hcap, failedWith_raise _ rfl⟩
    · obtain ⟨k, hfail⟩ := exists_stepsTo_conts_full (by decide) hin rfl rfl rfl
        (hdrop.trans (List.append_nil _).symm) (exceeds_zero s.cap) (Nat.zero_add _ ▸ hcap)
      exact ⟨_, k, _, hstart, hfail, failedWith_raise _ rfl⟩
  · rw [vldecFn_of_drop_eq hdrop]
    refine ⟨fun n next hres hcap => ?_, fun n next hres hcap => ?_, nofun, nofun⟩
    · obtain ⟨rfl, rfl⟩ := Prod.mk.inj (Option.some.inj hres)
      rw [Nat.add_sub_cancel_left]
      exact ⟨_, _, hstart, stepsTo_vldec hin rfl rfl rfl hdrop hcap, rfl, rfl, rfl, rfl, rfl, rfl,
        readResult_vldec rfl rfl rfl rfl⟩
    · obtain ⟨rfl, rfl⟩ := Prod.mk.inj (Option.some.inj hres)
      obtain ⟨k, hfail⟩ := exists_stepsTo_vldec_full hin rfl rfl rfl hdrop hcap
      exact ⟨_, k, _, hstart, hfail, failedWith_raise _ rfl⟩

end Sys2Proof.Machine
end

section
/-! The three step rules of the encoder (42_encoder.md R137, R138, R139): the scanner's two rules and the length
encoder's, with an end-of-input test in front and a choice of head byte between them. -/

namespace Sys2Proof.Machine

/-- Settles O27: the end-of-input test is false where there is a byte, and then the rule is `startRun`. -/
theorem encodeHeadStep : Obligations.EncodeHeadStep := by
  intro s b p hin hb hp
  have hrule : step s = if b.length ≤ p then .next (finish s) else startRun s :=
    (step_blockIn hin).trans (encodeHead_of hb hp)
  rw [hrule]
  refine ⟨fun hend => if_pos hend, fun v hv => ?_⟩
  rw [if_neg (Nat.not_le.mpr (lt_length_of_memRead hv)), startRun_of hb hp hv]

/-- Past the run `RP` is advanced and the head byte appended: the byte itself, or the tag before a length (R138). -/
theorem step_encode_runEnd {s : State} {b : Buffer} {p n : Nat} {v : Byte} (hin : blockIn .encode .count s)
    (hb : s.inp = some b) (hp : s.rp = some p) (hn : s.acc = some n) (hv : s.val = some v)
    (hne : memRead b (p + n) ≠ some v) :
    step s =
      if literalRun n v then append v { s with rp := some (p + n) } fun t => .next { t with ph := some .head }
      else append (markByte v) { s with rp := some (p + n) } fun t => .next { t with ph := some .len } := by
  rw [step_blockIn hin]
  exact (countRun_of _ hb hp hn hv).trans (if_neg hne)

/-- Settles O28: an equal byte is counted as in `SCAN`, and any other ends the run with its head byte. -/
theorem encodeCountStep : Obligations.EncodeCountStep := by
  intro s b p n v o hin hb hp hn hv hout
  refine ⟨step_count_equal (by decide) hin hb hp hn hv, fun hne hcap => ?_⟩
  rw [step_encode_runEnd hin hb hp hn hv hne, ← literalRun_iff]
  refine ⟨fun hlit => ?_, fun hrun => ?_⟩
  · exact (if_pos hlit).trans (append_of v _ hout hcap)
  · exact (if_neg hrun).trans (append_of (markByte v) _ hout hcap)

/-- Settles O29: the step rule is `emitLength`, after whose terminator the next run starts. -/
theorem encodeLenStep : Obligations.EncodeLenStep := by
  intro s n o hin hn _ hout hcap
  refine ⟨step_len_continuation (by decide) hin hn hout hcap, fun hle => ?_⟩
  rw [step_blockIn hin]
  exact emitLength_terminator _ hn hout hcap hle

end Sys2Proof.Machine
end

section
/-! The run of `ENCODE` (42_encoder.md R140, R144, R145; 60_exceptions.md R196). The output only grows, so a stretch of
a run either comes to its end or, exactly if the output it stages is over `CAP`, to `CapacityExceeded`. Both outcomes
are carried through the phases of one run of equal bytes and then from run to run. -/

namespace Sys2Proof.Machine

/-- From `s`, whose operation stages `out` up to the end of the stretch: if `out` is within `CAP` the block comes in
`k` steps to a state of which `P` holds, and otherwise it enters `CapacityExceeded`. -/
structure RunsWithin (out : Buffer) (k : Nat) (s : State) (P : State → Prop) : Prop where
  fits : within s.cap out.length → ∃ t, stepsTo k s = some t ∧ P t
  full : ¬ within s.cap out.length → ∃ j, stepsTo j s = some (raise .capacityExceeded s)

section
variable {s t u : State} {out out' : Buffer} {k l : Nat} {P Q : State → Prop}

/-- States that leave the same error behind differ in what R197 discards, so they have the same `CAP`. -/
theorem cap_eq_of_raise_eq {e : ErrCode} (h : raise e t = raise e s) : t.cap = s.cap := by
  rw [← raise_cap e t, h, raise_cap]

/-- A stretch that appends nothing. -/
theorem RunsWithin.of_stepsTo (hcap : within s.cap out.length) (hst : stepsTo k s = some t) (ht : P t) :
    RunsWithin out k s P :=
  ⟨fun _ => ⟨t, hst, ht⟩, fun hover => absurd hcap hover⟩

/-- A step that is one append. -/
theorem RunsWithin.of_append {x : Byte} {cont : State → StepOutcome} (hstep : step s = append x u cont)
    (hsame : raise .capacityExceeded u = raise .capacityExceeded s) (hout : u.out = some out)
    (hcont : cont { u with out := some (out ++ [x]) } = .next t) (ht : P t) : RunsWithin (out ++ [x]) 1 s P := by
  have hcap := cap_eq_of_raise_eq hsame
  have hlen : (out ++ [x]).length = out.length + 1 := List.length_append
  refine ⟨fun hroom => ⟨t, stepsTo_one ?_, ht⟩, fun hover => ⟨1, stepsTo_one ?_⟩⟩
  · rw [hstep, append_of x cont hout (by rwa [hcap, ← hlen]), hcont]
  · rw [hstep, append_full x cont hout (by rwa [hcap, ← hlen, ← Bool.not_eq_false]), hsame]

/-- A stretch that follows steps without an append. -/
theorem RunsWithin.after (hst : stepsTo k s = some t) (hsame : raise .capacityExceeded t = raise .capacityExceeded s)
    (h : RunsWithin out l t Q) : RunsWithin out (k + l) s Q := by
  have hcap := cap_eq_of_raise_eq hsame
  refine ⟨fun hroom => ?_, fun hover => ?_⟩
  · obtain ⟨u, hu, hQ⟩ := h.fits (hcap ▸ hroom)
    exact ⟨u, stepsTo_trans hst hu, hQ⟩
  · obtain ⟨j, hj⟩ := h.full (hcap ▸ hover)
    exact ⟨k + j, stepsTo_trans hst (hsame ▸ hj)⟩

/-- Two stretches, the second with the longer output. -/
theorem RunsWithin.andThen (h : RunsWithin out k s P) (hle : out.length ≤ out'.length)
    (hnext : ∀ t, P t → within s.cap out.length →
      raise .capacityExceeded t = raise .capacityExceeded s ∧ RunsWithin out' l t Q) :
    RunsWithin out' (k + l) s Q := by
  by_cases hroom : within s.cap out.length
  · obtain ⟨t, hst, ht⟩ := h.fits hroom
    obtain ⟨hsame, hrest⟩ := hnext t ht hroom
    exact hrest.after hst hsame
  · exact ⟨fun hroom' => absurd (exceeds_le hroom' hle) hroom, fun _ => h.full hroom⟩

end

/-- The block of `s` when it has staged `out` and stands at the start of the run at `p`, or at the end of the input;
`ACC` and `VAL` hold what the run before has left. -/
def AtRunStart (p : Nat) (out : Buffer) (s t : State) : Prop :=
  ∃ acc val, t = { s with ph := some .head, rp := some p, out := some out, acc := acc, val := val }

/-- The block of `s` when `ENCODE` has ended at `p` with the result `out`. -/
def EncodeDone (p : Nat) (out : Buffer) (s t : State) : Prop :=
  ∃ acc val, t = { s with st := .done, ph := some .head, rp := some p, out := some out, acc := acc, val := val }

theorem runLength_le_length (v : Byte) (b : Buffer) : runLength v b ≤ b.length := by
  by_contra h
  have hout := getElem?_of_lt_runLength (Nat.lt_of_not_le h)
  rw [List.getElem?_eq_none le_rfl] at hout
  cases hout

theorem vlencFn_length {n : Nat} (hn : 1 ≤ n) : (vlencFn n).length = lengthBytes n := by
  obtain ⟨-, -, -, hlen, -⟩ := vlencClosedForm n hn
  exact hlen

section
variable {s : State} {b out : Buffer} {p n fuel : Nat} {v : Byte}

/-- Phase `LEN` writes the length bytes of `ACC`, one a step (R139). -/
theorem runsWithin_encodeLen (hin : blockIn .encode .len s) (hp : s.rp = some p) (hn : s.acc = some n)
    (hout : s.out = some out) :
    RunsWithin (out ++ vlencFn n) (vlencFn n).length s (AtRunStart p (out ++ vlencFn n) s) := by
  induction n using Nat.strong_induction_on generalizing s out with
  | h n ih =>
    have hrule : step s = emitLength s fun t => .next { t with ph := some .head } := step_blockIn hin
    rw [emitLength_of _ hn] at hrule
    by_cases hover : 127 < n
    · rw [if_pos ((overChunk_iff n).mpr hover)] at hrule
      have hfirst := RunsWithin.of_append (P := Eq _) hrule rfl hout rfl rfl
      rw [vlencFn_continuation hover, ← List.append_assoc, List.length_append]
      refine hfirst.andThen (by simp) ?_
      rintro _ rfl -
      exact ⟨rfl, ih (n - 127) (by omega) hin hp rfl rfl⟩
    · rw [if_neg ((overChunk_iff n).not.mpr hover)] at hrule
      rw [vlencFn_terminator (Nat.not_lt.mp hover)]
      exact RunsWithin.of_append hrule rfl hout rfl ⟨s.acc, s.val, by rw [← hp]⟩

/-- Phases `HEAD` and `COUNT` find the run at `RP` and leave its length in `ACC` (R137, R138). -/
theorem stepsTo_encode_runEnd (hin : blockIn .encode .head s) (hb : s.inp = some b) (hp : s.rp = some p)
    (hv : memRead b p = some v) (hn : runLength v (b.drop p) = n) (hcap : within s.cap b.length) :
    stepsTo n s = some { s with val := some v, acc := some n, ph := some .count } := by
  obtain ⟨-, hstart⟩ := encodeHeadStep s b p hin hb hp
  obtain ⟨hsilent, hbusy, hop, -⟩ := hin
  rw [runLength_drop, if_pos hv, Nat.add_comm] at hn
  subst hn
  exact stepsTo_trans (stepsTo_one (hstart v hv))
    (stepsTo_count (o := .encode) (by decide) ⟨hsilent, hbusy, hop, rfl⟩ hb hp rfl rfl hcap)

/-- One run of equal bytes is written as its record, in the steps R145 counts for it. -/
theorem runsWithin_encodeRun (hin : blockIn .encode .head s) (hb : s.inp = some b) (hp : s.rp = some p)
    (hout : s.out = some out) (hv : memRead b p = some v) (hn : runLength v (b.drop p) = n)
    (hcap : within s.cap b.length) :
    RunsWithin (out ++ runRecord v n) (runSteps v n) s (AtRunStart (p + n) (out ++ runRecord v n) s) := by
  have hcount := stepsTo_encode_runEnd hin hb hp hv hn hcap
  have hpos : 1 ≤ n := by rw [← hn, runLength_drop, if_pos hv]; omega
  obtain ⟨hsilent, hbusy, hop, -⟩ := hin
  have hend := step_encode_runEnd (s := { s with val := some v, acc := some n, ph := some .count })
    ⟨hsilent, hbusy, hop, rfl⟩ hb hp rfl rfl (hn ▸ memRead_runLength_ne v b p)
  rw [runSteps, Nat.add_comm 1, Nat.add_assoc, runRecord]
  refine RunsWithin.after hcount rfl ?_
  cases hlit : literalRun n v with
  | true =>
    rw [if_pos hlit] at hend
    exact RunsWithin.of_append hend rfl hout rfl ⟨_, _, rfl⟩
  | false =>
    rw [if_neg (Bool.eq_false_iff.mp hlit)] at hend
    have htag := RunsWithin.of_append (P := Eq _) hend rfl hout rfl rfl
    rw [if_neg Bool.false_ne_true, if_neg Bool.false_ne_true, List.append_cons, ← vlencFn_length hpos]
    refine htag.andThen (by simp) ?_
    rintro _ rfl -
    exact ⟨rfl, runsWithin_encodeLen ⟨hsilent, hbusy, hop, rfl⟩ rfl rfl rfl⟩

/-- At the end of the input one step ends the operation, with the output staged so far (R137). -/
theorem runsWithin_encodeEnd (hin : blockIn .encode .head s) (hb : s.inp = some b) (hp : s.rp = some b.length)
    (hout : s.out = some out) (hroom : within s.cap out.length) :
    RunsWithin out 1 s (EncodeDone b.length out s) := by
  obtain ⟨hdone, -⟩ := encodeHeadStep s b b.length hin hb hp
  obtain ⟨-, -, -, hph⟩ := hin
  exact .of_stepsTo hroom (stepsTo_one (hdone le_rfl)) ⟨s.acc, s.val, by rw [← hph, ← hp, ← hout]⟩

/-- The invariant of R140: at the start of a run the output staged so far and the encoding of the rest are the
result. -/
theorem runsWithin_encode (hin : blockIn .encode .head s) (hb : s.inp = some b) (hp : s.rp = some p)
    (hle : p ≤ b.length) (hfuel : b.length ≤ p + fuel) (hout : s.out = some out) (hcap : within s.cap b.length)
    (hroom : within s.cap out.length) :
    RunsWithin (out ++ encodeLoop fuel (b.drop p)) (encodeStepsLoop fuel (b.drop p)) s
      (EncodeDone b.length (out ++ encodeLoop fuel (b.drop p)) s) := by
  induction fuel generalizing s p out with
  | zero =>
    obtain rfl : p = b.length := by omega
    simpa [encodeLoop, encodeStepsLoop] using runsWithin_encodeEnd hin hb hp hout hroom
  | succ fuel ih =>
    obtain rfl | hlt := hle.eq_or_lt
    · simpa [encodeLoop, encodeStepsLoop] using runsWithin_encodeEnd hin hb hp hout hroom
    · obtain ⟨v, hv⟩ := exists_memRead_of_lt hlt
      have hrun : runLength v (b.drop p) = runLength v (b.drop (p + 1)) + 1 := by rw [runLength_drop, if_pos hv]
      have hend : runLength v (b.drop p) ≤ b.length - p := List.length_drop ▸ runLength_le_length v (b.drop p)
      rw [drop_eq_cons_of_memRead hv, encodeLoop, encodeStepsLoop, List.drop_drop, ← List.append_assoc]
      refine (runsWithin_encodeRun hin hb hp hout hv hrun hcap).andThen (by simp) ?_
      rintro _ ⟨acc, val, rfl⟩ hroom
      obtain ⟨hsilent, hbusy, hop, -⟩ := hin
      refine ⟨rfl, ?_⟩
      rw [Nat.add_right_comm, Nat.add_assoc]
      exact ih ⟨hsilent, hbusy, hop, rfl⟩ hb rfl (by omega) (by omega) rfl hcap hroom

end

/-- From its launch `ENCODE` stages `encode(buf)`, whether or not that fits (R140). -/
theorem runsWithin_launched_encode {s : State} {buf : Buffer} (hsilent : s.host = [])
    (hcap : within s.cap buf.length) :
    RunsWithin (encodeFn buf) (encodeSteps buf) (startOperation .encode .head buf 0 0 s)
      (EncodeDone buf.length (encodeFn buf) (startOperation .encode .head buf 0 0 s)) :=
  runsWithin_encode (p := 0) (out := []) ⟨hsilent, rfl, rfl, rfl⟩ rfl rfl (Nat.zero_le _) (Nat.le_add_left _ 0) rfl
    hcap (exceeds_zero _)

/-- Settles O44: the launch stages nothing, and the output of the whole run fits. -/
theorem encodeRunsToItsResult : Obligations.EncodeRunsToItsResult := by
  intro s buf hb hsilent hcap hroom
  obtain ⟨-, -, -, hlaunch, -⟩ := launchStartsTheOperation s hb
  obtain ⟨_, hsteps, acc, val, rfl⟩ := (runsWithin_launched_encode hsilent hcap).fits hroom
  exact ⟨_, _, hlaunch buf hcap, hsteps, rfl, rfl, rfl, rfl, rfl,
    readResult_output (o := .encode) rfl (by decide) rfl rfl⟩

/-- Settles O45: the output of the whole run does not fit, so one of its appends fails. -/
theorem encodeOverCapacityEndsInError : Obligations.EncodeOverCapacityEndsInError := by
  intro s buf hb hsilent hcap hover
  obtain ⟨-, -, -, hlaunch, -⟩ := launchStartsTheOperation s hb
  obtain ⟨k, hfail⟩ := (runsWithin_launched_encode hsilent hcap).full hover
  exact ⟨_, k, _, hlaunch buf hcap, hfail, failedWith_raise _ rfl⟩

end Sys2Proof.Machine
end

section
/-! The output of the encoder (42_encoder.md R136, R141; 30_encoding.md R84): a buffer is a sequence of maximal runs,
and the record of each run is canonical and short. -/

namespace Sys2Proof.Machine

/-! A buffer as its maximal runs (R136). -/

theorem replicate_runLength_append (v : Byte) (b : Buffer) :
    List.replicate (runLength v b) v ++ b.drop (runLength v b) = b := by
  induction b with
  | nil => rfl
  | cons x xs ih =>
    unfold runLength
    split
    next hx => rw [List.replicate_succ, List.cons_append, List.drop_succ_cons, ih, hx]
    next => rfl

/-- Induction over the maximal runs of a buffer, from the last to the first. -/
theorem run_induction {P : Buffer → Prop} (nil : P [])
    (run : ∀ v n b, 1 ≤ n → b.head? ≠ some v → P b → P (List.replicate n v ++ b)) (b : Buffer) : P b := by
  match b with
  | [] => exact nil
  | v :: rest =>
    have hmax : (rest.drop (runLength v rest)).head? ≠ some v :=
      List.head?_drop ▸ getElem?_runLength_ne v rest
    have hrest := run v (runLength v rest + 1) _ (Nat.le_add_left 1 _) hmax (run_induction nil run _)
    rwa [List.replicate_succ, List.cons_append, replicate_runLength_append] at hrest
termination_by b.length
decreasing_by simp

/-! The record of one run. -/

theorem lengthByte_eq_fieldByte {t : Nat} (ht : t ≤ 127) : lengthByte t = fieldByte (BitVec.ofNat 7 t) := by
  apply BitVec.eq_of_toNat_eq
  rw [fieldByte_toNat, lengthByte, BitVec.toNat_ofNat, BitVec.toNat_ofNat]
  omega

theorem markedByte_lowField : ∀ v : Byte, markedByte (lowField v) = markByte v := by decide

/-- What the encoder writes for a run is one canonical record, whatever bit 7 of the byte is (R84, R141 (a)). -/
theorem exists_canonicalRecord (v : Byte) {n : Nat} (hn : 1 ≤ n) :
    ∃ r, canonicalRecord r = true ∧ recordBytes r = runRecord v n := by
  cases hlit : literalRun n v with
  | true =>
    obtain ⟨-, hlow⟩ := (literalRun_iff n v).mp hlit
    refine ⟨.literal (lowField v), rfl, ?_⟩
    simp [recordBytes, runRecord, hlit, fieldByte_lowField_of_low ((highBit_false_iff v).mpr hlow)]
  | false =>
    obtain ⟨k, t, rfl, ht, ht'⟩ := exists_chunks hn
    have hfield : BitVec.ofNat 7 t ≠ 0 := by bv_omega
    refine ⟨.run (lowField v) (List.replicate k 0x7F) (BitVec.ofNat 7 t), ?_, ?_⟩
    · simpa [canonicalRecord] using hfield
    · rw [recordBytes, runRecord, hlit, vlencFn_chunks k ht ht', markedByte_lowField, List.map_replicate,
        lengthByte_eq_fieldByte ht']
      rfl

theorem runRecord_length (v : Byte) {n : Nat} (hn : 1 ≤ n) :
    (runRecord v n).length = if literalRun n v then 1 else 1 + lengthBytes n := by
  rw [← vlencFn_length hn, runRecord]
  split
  next => rfl
  next => exact Nat.add_comm _ 1

/-- A record is at most twice as long as its run, which only a single byte above 0x7F makes it (R141 (c)). -/
theorem runRecord_length_le (v : Byte) {n : Nat} (hn : 1 ≤ n) :
    (runRecord v n).length ≤ 2 * n ∧ (highBit v = false → (runRecord v n).length ≤ n) := by
  rw [runRecord_length v hn, lengthBytes, Config.chunk]
  cases hlit : literalRun n v with
  | true => exact ⟨by rw [if_pos rfl]; omega, fun _ => hn⟩
  | false =>
    rw [if_neg Bool.false_ne_true]
    refine ⟨by omega, fun hlow => ?_⟩
    have hmore : n ≠ 1 := fun hone => by simp [literalRun, hone, hlow] at hlit
    omega

/-! The whole output, run by run. -/

theorem exists_canonical_records (b : Buffer) :
    ∃ rs, encodeFn b = streamBytes rs ∧ rs.all canonicalRecord = true := by
  induction b using run_induction with
  | nil => exact ⟨[], rfl, rfl⟩
  | run v n b hn hmax ih =>
    obtain ⟨rs, hbytes, hcanon⟩ := ih
    obtain ⟨r, hr, hrun⟩ := exists_canonicalRecord v hn
    refine ⟨r :: rs, ?_, by simp [hr, hcanon]⟩
    rw [encodeFn_replicate_append hn hmax, hbytes, streamBytes_cons, hrun]

theorem encodeFn_length_le (b : Buffer) : (encodeFn b).length ≤ 2 * b.length := by
  induction b using run_induction with
  | nil => exact le_rfl
  | run v n b hn hmax ih =>
    obtain ⟨hrun, -⟩ := runRecord_length_le v hn
    rw [encodeFn_replicate_append hn hmax, List.length_append, List.length_append, List.length_replicate]
    omega

theorem encodeFn_length_le_of_sevenBit {b : Buffer} (h : sevenBit b = true) : (encodeFn b).length ≤ b.length := by
  induction b using run_induction with
  | nil => exact le_rfl
  | run v n b hn hmax ih =>
    obtain ⟨hv, hb⟩ : highBit v = false ∧ sevenBit b = true := by
      simpa [sevenBit, List.all_replicate, Nat.ne_of_gt hn] using h
    obtain ⟨-, hrun⟩ := runRecord_length_le v hn
    rw [encodeFn_replicate_append hn hmax, List.length_append, List.length_append, List.length_replicate]
    exact Nat.add_le_add (hrun hv) (ih hb)

/-- Settles O55: run by run, for the records and for the two bounds. -/
theorem encodeOutputIsCanonicalAndBounded : Obligations.EncodeOutputIsCanonicalAndBounded :=
  fun b => ⟨exists_canonical_records b, encodeFn_length_le b, encodeFn_length_le_of_sevenBit⟩

end Sys2Proof.Machine
end

section
/-! The four stream bytes as instructions (43_decoder.md R158 to R161, R164; 41_varint_length.md R119): what each
answers where it is read, and, the other way round, what a next state without an error says. -/

namespace Sys2Proof.Machine

theorem fieldByte_eq_ofNat (v : Field) : fieldByte v = BitVec.ofNat 8 v.toNat :=
  BitVec.eq_of_toNat_eq (by simp [fieldByte])

section
variable {s t : State} {p n : Nat}

/-! What a stream byte answers. -/

theorem readsByte_head (hbusy : s.st = .busy) (hop : s.op = Operation.code .decode) (hph : s.ph = some .head) :
    readsByte [.decode] .head s = true :=
  readsByte_iff.mpr ⟨hbusy, ⟨.decode, by decide, hop.symm⟩, hph⟩

theorem readsByte_len (hbusy : s.st = .busy) (hop : s.op ∈ [Operation.vldec, .decode].map Operation.code)
    (hph : s.ph = some .len) : readsByte [.vldec, .decode] .len s = true :=
  readsByte_iff.mpr ⟨hbusy, List.mem_map.mp hop, hph⟩

theorem exec_lit (v : Field) (hread : readsByte [.decode] .head s = true) (hp : s.rp = some p) :
    exec (.lit v) s = append (fieldByte v) { s with rp := some (p + 1) } .next :=
  (whileReading_of _ hread).trans (advance_of _ hp)

theorem exec_lit_of {o : Buffer} (v : Field) (hread : readsByte [.decode] .head s = true) (hp : s.rp = some p)
    (hout : s.out = some o) (hcap : within s.cap (o.length + 1)) :
    exec (.lit v) s = .next { s with out := some (o ++ [fieldByte v]), rp := some (p + 1) } :=
  (exec_lit v hread hp).trans (append_of (s := { s with rp := some (p + 1) }) _ _ hout hcap)

theorem exec_runtag (v : Field) (hread : readsByte [.decode] .head s = true) (hp : s.rp = some p) :
    exec (.runtag v) s =
      .next { s with val := some (fieldByte v), acc := some 0, rp := some (p + 1), ph := some .len } :=
  (whileReading_of _ hread).trans (advance_of _ hp)

theorem exec_term_decode (v : Field) (hread : readsByte [.vldec, .decode] .len s = true)
    (hop : s.op = Operation.code .decode) (hp : s.rp = some p) (hn : s.acc = some n)
    (hcap : within s.cap (n + v.toNat)) :
    exec (.term v) s = .next { s with acc := some (n + v.toNat), rp := some (p + 1), ph := some .exp } := by
  refine (whileReading_of _ hread).trans ((advance_of _ hp).trans ?_)
  exact (addAcc_of (s := { s with rp := some (p + 1) }) _ hn hcap).trans (if_neg (by rw [hop]; decide))

/-! What a next state without an error says of a stream byte. -/

theorem exec_lit_eq_next {v : Field} (h : exec (.lit v) s = .next t) (hok : t.st ≠ .err) :
    ∃ p o, s.out = some o ∧ t = { s with rp := some (p + 1), out := some (o ++ [fieldByte v]) } := by
  obtain ⟨-, h⟩ := whileReading_eq_next h
  obtain ⟨p, -, h⟩ := advance_eq_next h
  obtain ⟨o, ho, ⟨-, rfl⟩ | ⟨-, h⟩⟩ := append_eq_next h
  · exact absurd rfl hok
  · cases h
    exact ⟨p, o, ho, rfl⟩

theorem exec_runtag_eq_next {v : Field} (h : exec (.runtag v) s = .next t) :
    ∃ p, t = { s with val := some (fieldByte v), acc := some 0, rp := some (p + 1), ph := some .len } := by
  obtain ⟨-, h⟩ := whileReading_eq_next h
  obtain ⟨p, -, h⟩ := advance_eq_next h
  cases h
  exact ⟨p, rfl⟩

/-- A length byte that is read within `CAP` goes on after adding to `ACC` and to `RP`. -/
theorem lengthByte_eq_next {mn : String} {ops : List Operation} {ph : Phase} {k : State → StepOutcome}
    (h : whileReading mn ops ph s (advance s fun u => addAcc n u k) = .next t) (hok : t.st ≠ .err) :
    ∃ acc rp, k { s with acc := acc, rp := rp } = .next t := by
  obtain ⟨-, h⟩ := whileReading_eq_next h
  obtain ⟨p, -, h⟩ := advance_eq_next h
  obtain ⟨a, -, ⟨-, rfl⟩ | ⟨-, h⟩⟩ := addAcc_eq_next h
  · exact absurd rfl hok
  · exact ⟨_, _, h⟩

end

/-! The statements. -/

/-- Settles O16: where there is room the append goes on to the next state. -/
theorem litAppendsItsByte : Obligations.LitAppendsItsByte := by
  intro s v p o hbusy hop hph hp hout hcap
  rw [exec_lit_of v (readsByte_head hbusy hop hph) hp hout hcap, fieldByte_eq_ofNat]

/-- Settles O18: a length byte of the class `CONT`, with and without room for the sum. -/
theorem contAdds127 : Obligations.ContAdds127 := by
  intro s x p n hbusy hop hph hp hn
  have hread := readsByte_len hbusy hop hph
  exact ⟨exec_cont x hread hp hn, fun hcap => ⟨_, exec_cont_full x hread hp hn hcap, failedWith_raise _ rfl⟩⟩

/-- Settles O19: a length byte of the class `TERM`, for each of the two operations and without room for the sum. -/
theorem termAddsItsValueAndEndsTheLength : Obligations.TermAddsItsValueAndEndsTheLength := by
  intro s v p n hbusy hph hp hn
  refine ⟨fun hop hcap => ?_, fun hop hcap => ?_, fun hop hcap => ?_⟩
  · exact exec_term_decode v (readsByte_len hbusy (hop ▸ by decide) hph) hop hp hn hcap
  · exact exec_term_vldec v (readsByte_len hbusy (hop ▸ by decide) hph) hop hp hn hcap
  · exact ⟨_, exec_term_full v (readsByte_len hbusy hop hph) hp hn hcap, failedWith_raise _ rfl⟩

/-- Settles O21: each byte's next state without an error is the state before with the named registers written. -/
theorem streamByteFrame : Obligations.StreamByteFrame := by
  intro s t v hok
  refine ⟨fun h => ?_, fun h => ?_, fun h => ?_, fun h => ?_⟩
  · obtain ⟨p, o, ho, rfl⟩ := exec_lit_eq_next h hok
    refine ⟨rfl, fun o' ho' => ⟨_, rfl, fun a ha => ?_⟩⟩
    obtain rfl : o = o' := Option.some.inj (ho.symm.trans ho')
    exact memRead_append_other o _ a ha
  · obtain ⟨p, rfl⟩ := exec_runtag_eq_next h
    rfl
  · obtain ⟨acc, rp, h⟩ := lengthByte_eq_next h hok
    cases h
    rfl
  · obtain ⟨acc, rp, h⟩ := lengthByte_eq_next h hok
    refine ⟨fun hop => ?_, fun hop => ?_⟩
    · rw [if_neg (by simp [hop, Operation.code])] at h
      cases h
      rfl
    · rw [if_pos hop] at h
      cases h
      rfl

end Sys2Proof.Machine
end

section
/-! The three step rules of the decoder (43_decoder.md R155, R156, R157): a byte at `RP` runs as its instruction, the
end of the input ends the operation or fails it, and phase `EXP` is a stretch of appends. -/

namespace Sys2Proof.Machine

section
variable {s : State} {b out : Buffer} {p n : Nat}

/-! The step at a byte and at the end of the input. -/

theorem readsByte_head_of_blockIn (hin : blockIn .decode .head s) : readsByte [.decode] .head s = true := by
  obtain ⟨-, hbusy, hop, hph⟩ := hin
  exact readsByte_head hbusy hop hph

theorem step_headByte {x : Byte} {i : Instr} (hin : blockIn .decode .head s) (hb : s.inp = some b)
    (hp : s.rp = some p) (hx : memRead b p = some x) (hi : decodeByte .head x = .ok i) : step s = exec i s := by
  obtain ⟨-, hrun⟩ := stepRunsTheDecodedInstruction s
  exact hrun .decode .head b p x i hin (by decide) hb hp hx hi

theorem step_decodeHead_end (hin : blockIn .decode .head s) (hb : s.inp = some b) (hp : s.rp = some p)
    (hend : memRead b p = none) : step s = .next (finish s) := by
  rw [step_blockIn hin]
  exact congrArg answer (fetchByte_end (ph := .head) (decodeHeadEnd s) hb hp hend)

theorem step_decodeLen_end (hin : blockIn .decode .len s) (hb : s.inp = some b) (hp : s.rp = some p)
    (hend : memRead b p = none) : step s = .next (raise .malformedStream s) := by
  rw [step_blockIn hin]
  exact congrArg answer (fetchByte_end (ph := .len) (decodeLenEnd s) hb hp hend)

theorem decodeByte_head_high {x : Byte} (h : highBit x = true) :
    decodeByte .head x = .ok (.runtag (lowField x)) := by
  rw [decodeByte_head, if_pos h]

theorem decodeByte_head_low {x : Byte} (h : highBit x = false) : decodeByte .head x = .ok (.lit (lowField x)) := by
  rw [decodeByte_head, h]; rfl

/-! Phase `EXP`. -/

theorem step_decodeExp_zero (hin : blockIn .decode .exp s) (hn : s.acc = some 0) :
    step s = .next { s with ph := some .head } := by
  rw [step_blockIn hin]
  simp [stepRule, decodeExp, hn]

theorem step_decodeExp_copy {v : Byte} (hin : blockIn .decode .exp s) (hn : s.acc = some n) (hv : s.val = some v)
    (hpos : 1 ≤ n) : step s = append v s fun t => .next { t with acc := some (n - 1) } := by
  rw [step_blockIn hin]
  exact (decodeExp_of hn hv).trans (if_neg (Nat.one_le_iff_ne_zero.mp hpos))

/-- The whole phase appends `ACC` copies of `VAL`, one a step, and goes back to `HEAD`. -/
theorem runsWithin_decodeExp {v : Byte} (hin : blockIn .decode .exp s) (hn : s.acc = some n) (hv : s.val = some v)
    (hout : s.out = some out) (hroom : within s.cap out.length) :
    RunsWithin (out ++ List.replicate n v) (n + 1) s
      (Eq { s with out := some (out ++ List.replicate n v), acc := some 0, ph := some .head }) := by
  induction n generalizing s out with
  | zero =>
    rw [List.replicate_zero, List.append_nil]
    exact .of_stepsTo hroom (stepsTo_one (step_decodeExp_zero hin hn)) (by rw [← hout, ← hn])
  | succ n ih =>
    have hcopy := RunsWithin.of_append (P := Eq _) (step_decodeExp_copy hin hn hv (by omega)) rfl hout rfl rfl
    rw [List.replicate_succ, List.append_cons, Nat.add_comm (n + 1)]
    refine hcopy.andThen (by simp) ?_
    rintro _ rfl hroom
    exact ⟨rfl, ih hin rfl hv rfl hroom⟩

end

/-! The statements. -/

/-- Settles O30: past the end the operation is done; a byte without bit 7 runs as `LIT`, one with it as `RUNTAG`. -/
theorem decodeHeadStep : Obligations.DecodeHeadStep := by
  intro s b p o hin hb hp hout
  have hread := readsByte_head_of_blockIn hin
  refine ⟨fun hend => step_decodeHead_end hin hb hp ((memRead_none_iff b p).mpr hend),
    fun x hx => ⟨fun hlow hcap => ?_, fun hhigh => ?_⟩⟩
  · have hbit := (highBit_false_iff x).mpr hlow
    rw [step_headByte hin hb hp hx (decodeByte_head_low hbit), exec_lit_of _ hread hp hout hcap,
      fieldByte_lowField_of_low hbit]
  · rw [step_headByte hin hb hp hx (decodeByte_head_high ((highBit_iff x).mpr hhigh)), exec_runtag _ hread hp,
      fieldByte_lowField]
    rfl

/-- Settles O31: past the end the stream is malformed; a byte with bit 7 runs as `CONT`, one without it as `TERM`. -/
theorem decodeLenStep : Obligations.DecodeLenStep := by
  intro s b p n hin hb hp hn
  have hread := readsByte_of_blockIn (by decide) hin
  have hop := op_of_blockIn hin
  refine ⟨fun hend => ⟨_, step_decodeLen_end hin hb hp ((memRead_none_iff b p).mpr hend), failedWith_raise _ hop⟩,
    fun x hx => ⟨fun hhigh hcap => ?_, fun hlow hcap => ?_⟩⟩
  · rw [step_lengthByte (by decide) hin hb hp hx (decodeByte_len_high ((highBit_iff x).mpr hhigh))]
    exact exec_cont _ hread hp hn hcap
  · rw [step_lengthByte (by decide) hin hb hp hx (decodeByte_len_low ((highBit_false_iff x).mpr hlow))]
    rw [← lowField_of_low x hlow] at hcap ⊢
    exact exec_term_decode _ hread hop hp hn hcap

/-- Settles O17: after the tag the block is in phase `LEN`, where the end of the input is an error. -/
theorem runtagSetsUpTheRun : Obligations.RuntagSetsUpTheRun := by
  intro s v p hbusy hop hph hp
  refine ⟨_, exec_runtag v (readsByte_head hbusy hop hph) hp, by rw [fieldByte_eq_ofNat], ?_⟩
  intro b hsilent hb hlast
  obtain ⟨hend, -⟩ := decodeLenStep
    { s with val := some (fieldByte v), acc := some 0, rp := some (p + 1), ph := some .len } b (p + 1) 0
    ⟨hsilent, hbusy, hop, rfl⟩ hb rfl rfl
  exact hend hlast.le

/-- Settles O32: no copy left, one copy, and the stretch of all copies and the step that finds none left. -/
theorem decodeExpStep : Obligations.DecodeExpStep := by
  intro s n hin hn
  refine ⟨?_, fun v o hv hout => ⟨fun hpos hcap => ?_, fun hcap => ?_⟩⟩
  · rintro rfl
    exact step_decodeExp_zero hin hn
  · rw [step_decodeExp_copy hin hn hv hpos, append_of _ _ hout hcap]
  · have hroom : within s.cap o.length := exceeds_le hcap (Nat.le_add_right _ _)
    obtain ⟨_, hsteps, rfl⟩ := (runsWithin_decodeExp hin hn hv hout hroom).fits (by simpa using hcap)
    exact hsteps

end Sys2Proof.Machine
end

section
/-! The run of `DECODE` (43_decoder.md R151, R152, R162 to R166; 60_exceptions.md R196, R198). The input is a sequence
of records and, if it is malformed, an unfinished one. The records are a stretch of appends (`RunsWithin`), each from
one `HEAD` to the next; what comes after them is the end of the input, or a tag and continuation bytes. -/

namespace Sys2Proof.Machine

/-- Settles O52: records decode to what they stand for, and a buffer that decodes is well-formed, so it is records. -/
theorem decodeOfRecordsIsTheirOutput : Obligations.DecodeOfRecordsIsTheirOutput := by
  refine ⟨fun rs => ⟨decodeFn_streamBytes rs, sevenBit_records rs⟩, fun buf hnot => ?_⟩
  rwa [← wellFormedStream_iff_records, ← isSome_decodeFn, Option.not_isSome_iff_eq_none] at hnot

theorem RunsWithin.mono {out : Buffer} {k : Nat} {s : State} {P Q : State → Prop} (h : RunsWithin out k s P)
    (hPQ : ∀ t, P t → Q t) : RunsWithin out k s Q :=
  ⟨fun hroom => (h.fits hroom).imp fun t => And.imp_right (hPQ t), h.full⟩

/-- At the start of a run or record the operation is in phase `HEAD`. -/
theorem AtRunStart.blockIn_head {o : Operation} {ph : Phase} {p : Nat} {out : Buffer} {s t : State}
    (h : AtRunStart p out s t) (hin : blockIn o ph s) : blockIn o .head t := by
  obtain ⟨acc, val, rfl⟩ := h
  obtain ⟨hsilent, hbusy, hop, -⟩ := hin
  exact ⟨hsilent, hbusy, hop, rfl⟩

section
variable {s : State} {b out rest : Buffer} {p : Nat} {v t : Field} {conts : List Field}

section
variable (hin : blockIn .decode .len s) (hb : s.inp = some b) (hp : s.rp = some p) (hn : s.acc = some 0)
include hin hb hp hn

/-! The length of a run (R156). -/

/-- The step at the terminator, after the continuation bytes. -/
theorem stepsTo_decode_conts_term (hdrop : b.drop p = conts.map markedByte ++ fieldByte t :: rest)
    (hcap : within s.cap (Config.chunk * conts.length)) {u : State}
    (hterm : exec (.term t)
      { s with rp := some (p + conts.length), acc := some (Config.chunk * conts.length) } = .next u) :
    stepsTo (conts.length + 1) s = some u := by
  have hmem : Operation.decode ∈ [Operation.vldec, .decode] := by decide
  have hconts := stepsTo_conts hmem hin hb hp hn hdrop (Nat.zero_add _ ▸ hcap)
  rw [Nat.zero_add] at hconts
  refine stepsTo_trans hconts (stepsTo_one (Eq.trans ?_ hterm))
  exact step_lengthByte hmem hin hb rfl (memRead_behind hdrop) (decodeByte_len_fieldByte t)

/-- A length within `CAP` is in `ACC` after one step for each of its bytes. -/
theorem stepsTo_decode_length (hdrop : b.drop p = conts.map markedByte ++ fieldByte t :: rest)
    (hcap : within s.cap (recordLength (.run v conts t))) :
    stepsTo (conts.length + 1) s = some
      { s with
        acc := some (recordLength (.run v conts t)), rp := some (p + conts.length + 1), ph := some .exp } :=
  stepsTo_decode_conts_term hin hb hp hn hdrop (exceeds_le hcap (Nat.le_add_right _ _))
    (exec_term_decode t (readsByte_of_blockIn (o := .decode) (by decide) hin) (op_of_blockIn hin) rfl rfl hcap)

/-- A length over `CAP` raises the error at one of its bytes. -/
theorem exists_stepsTo_decode_length_full (hdrop : b.drop p = conts.map markedByte ++ fieldByte t :: rest)
    (hcap : ¬ within s.cap (recordLength (.run v conts t))) :
    ∃ k, stepsTo k s = some (raise .capacityExceeded s) := by
  by_cases hfits : within s.cap (Config.chunk * conts.length)
  · exact ⟨_, stepsTo_decode_conts_term hin hb hp hn hdrop hfits
      (exec_term_full t (readsByte_of_blockIn (o := .decode) (by decide) hin) rfl rfl hcap)⟩
  · exact exists_stepsTo_conts_full (by decide) hin hb hp hn hdrop (exceeds_zero s.cap) (Nat.zero_add _ ▸ hfits)

/-- Continuation bytes up to the end of the input: each sum is tested against `CAP` before the end is found (R198). -/
theorem exists_stepsTo_decode_conts_end (hdrop : b.drop p = conts.map markedByte) :
    ∃ k, stepsTo k s =
      some (raise (if within s.cap (127 * conts.length) then .malformedStream else .capacityExceeded) s) := by
  rw [← List.append_nil (conts.map markedByte)] at hdrop
  by_cases hfits : within s.cap (127 * conts.length)
  · have hconts := stepsTo_conts (by decide) hin hb hp hn hdrop (Nat.zero_add _ ▸ hfits)
    rw [if_pos hfits]
    exact ⟨_, stepsTo_trans hconts (stepsTo_one (step_decodeLen_end hin hb rfl (memRead_behind hdrop)))⟩
  · rw [if_neg hfits]
    exact exists_stepsTo_conts_full (by decide) hin hb hp hn hdrop (exceeds_zero s.cap) (Nat.zero_add _ ▸ hfits)

end

section
variable (hin : blockIn .decode .head s) (hb : s.inp = some b) (hp : s.rp = some p)
include hin hb hp

/-! One record, from phase `HEAD` (R155). -/

/-- A tag leads to phase `LEN`, with its value in `VAL`. -/
theorem step_tag (hx : memRead b p = some (markedByte v)) :
    step s = .next { s with val := some (fieldByte v), acc := some 0, rp := some (p + 1), ph := some .len } := by
  rw [step_headByte hin hb hp hx (decodeByte_head_markedByte v), exec_runtag v (readsByte_head_of_blockIn hin) hp]

/-- A literal is one append. -/
theorem runsWithin_decodeLiteral (hout : s.out = some out) (hx : memRead b p = some (fieldByte v)) :
    RunsWithin (out ++ [fieldByte v]) 1 s (AtRunStart (p + 1) (out ++ [fieldByte v]) s) := by
  have hstep := step_headByte hin hb hp hx (decodeByte_head_fieldByte v)
  rw [exec_lit v (readsByte_head_of_blockIn hin) hp] at hstep
  obtain ⟨-, -, -, hph⟩ := hin
  exact .of_append hstep rfl hout rfl ⟨s.acc, s.val, by rw [← hph]⟩

/-- A run record is read into `VAL` and `ACC`, and then expanded; a length over `CAP` fails before it is. -/
theorem runsWithin_decodeRun (hout : s.out = some out) (hroom : within s.cap out.length)
    (hdrop : b.drop p = markedByte v :: (conts.map markedByte ++ fieldByte t :: rest)) :
    RunsWithin (out ++ recordOutput (.run v conts t)) (recordSteps (.run v conts t)) s
      (AtRunStart (p + 1 + conts.length + 1) (out ++ recordOutput (.run v conts t)) s) := by
  obtain ⟨hx, hlength⟩ := memRead_of_drop_eq hdrop
  have htag := stepsTo_one (step_tag hin hb hp hx)
  obtain ⟨hsilent, hbusy, hop, -⟩ := hin
  by_cases hfits : within s.cap (recordLength (.run v conts t))
  · have hlen := stepsTo_trans htag
      (stepsTo_decode_length (v := v) ⟨hsilent, hbusy, hop, rfl⟩ hb rfl rfl hlength hfits)
    refine RunsWithin.after hlen rfl (RunsWithin.mono
      (runsWithin_decodeExp ⟨hsilent, hbusy, hop, rfl⟩ rfl rfl hout hroom) ?_)
    rintro _ rfl
    exact ⟨_, _, rfl⟩
  · refine ⟨fun hall => absurd (exceeds_le hall (by simp [recordOutput])) hfits, fun _ => ?_⟩
    obtain ⟨k, hfail⟩ := exists_stepsTo_decode_length_full (s := { s with
      val := some (fieldByte v), acc := some 0, rp := some (p + 1), ph := some .len })
      ⟨hsilent, hbusy, hop, rfl⟩ hb rfl rfl hlength hfits
    exact ⟨1 + k, stepsTo_trans htag hfail⟩

theorem runsWithin_decodeRecord (r : Record) (hout : s.out = some out) (hroom : within s.cap out.length)
    (hdrop : b.drop p = recordBytes r ++ rest) :
    RunsWithin (out ++ recordOutput r) (recordSteps r) s
      (AtRunStart (p + (recordBytes r).length) (out ++ recordOutput r) s) := by
  cases r with
  | literal v =>
    obtain ⟨hx, -⟩ := memRead_of_drop_eq hdrop
    exact runsWithin_decodeLiteral hin hb hp hout hx
  | run v conts t =>
    have hend : p + (recordBytes (.run v conts t)).length = p + 1 + conts.length + 1 := by
      simp [recordBytes]; omega
    rw [hend]
    exact runsWithin_decodeRun hin hb hp hout hroom (by simpa [recordBytes] using hdrop)

/-- The invariant of R163: at a record boundary `OUT` is what the records before it stand for. -/
theorem runsWithin_decodeRecords (rs : List Record) (hout : s.out = some out) (hroom : within s.cap out.length)
    (hdrop : b.drop p = streamBytes rs ++ rest) :
    RunsWithin (out ++ rs.flatMap recordOutput) (rs.map recordSteps).sum s
      (AtRunStart (p + (streamBytes rs).length) (out ++ rs.flatMap recordOutput) s) := by
  induction rs generalizing s p out with
  | nil =>
    obtain ⟨-, -, -, hph⟩ := hin
    rw [List.flatMap_nil, List.append_nil, streamBytes_nil, List.length_nil, Nat.add_zero]
    exact .of_stepsTo hroom rfl ⟨s.acc, s.val, by rw [← hph, ← hout, ← hp]⟩
  | cons r rs ih =>
    rw [streamBytes_cons, List.append_assoc] at hdrop
    have hnext : b.drop (p + (recordBytes r).length) = streamBytes rs ++ rest := by
      rw [← List.drop_drop, hdrop, List.drop_left]
    rw [streamBytes_cons, List.flatMap_cons, ← List.append_assoc, List.length_append, ← Nat.add_assoc]
    refine (runsWithin_decodeRecord hin hb hp r hout hroom hdrop).andThen (by simp) ?_
    intro u hu hroom
    have hin' := hu.blockIn_head hin
    obtain ⟨acc, val, rfl⟩ := hu
    exact ⟨rfl, ih hin' hb rfl rfl hroom hnext⟩

/-- A tag and continuation bytes up to the end of the input (R162, R198). -/
theorem exists_stepsTo_decode_unfinished (hdrop : b.drop p = markedByte v :: conts.map markedByte) :
    ∃ k, stepsTo k s =
      some (raise (if within s.cap (127 * conts.length) then .malformedStream else .capacityExceeded) s) := by
  obtain ⟨hx, hlength⟩ := memRead_of_drop_eq hdrop
  have htag := stepsTo_one (step_tag hin hb hp hx)
  obtain ⟨hsilent, hbusy, hop, -⟩ := hin
  obtain ⟨k, hfail⟩ := exists_stepsTo_decode_conts_end (s := { s with
    val := some (fieldByte v), acc := some 0, rp := some (p + 1), ph := some .len })
    ⟨hsilent, hbusy, hop, rfl⟩ hb rfl rfl hlength
  exact ⟨1 + k, stepsTo_trans htag hfail⟩

end

end

/-! The whole run. -/

/-- From its launch `DECODE` stages what the records at the front of the buffer stand for, whether or not that fits. -/
theorem runsWithin_launched_decode {s : State} {rs : List Record} {tail : Buffer} (hsilent : s.host = []) :
    RunsWithin (rs.flatMap recordOutput) (rs.map recordSteps).sum
      (startOperation .decode .head (streamBytes rs ++ tail) 0 0 s)
      (AtRunStart (streamBytes rs).length (rs.flatMap recordOutput)
        (startOperation .decode .head (streamBytes rs ++ tail) 0 0 s)) := by
  have hrun := runsWithin_decodeRecords (s := startOperation .decode .head (streamBytes rs ++ tail) 0 0 s)
    (out := []) ⟨hsilent, rfl, rfl, rfl⟩ rfl rfl rs rfl (exceeds_zero _) (List.drop_zero ..)
  rwa [Nat.zero_add] at hrun

/-- The launch of a buffer within `CAP` (R151, R38). -/
theorem exec_decode_starts {s : State} {buf : Buffer} (hb : s.st ≠ .busy) (hcap : within s.cap buf.length) :
    exec (.decode buf) s = .next (startOperation .decode .head buf 0 0 s) := by
  obtain ⟨-, -, -, -, hlaunch⟩ := launchStartsTheOperation s hb
  exact hlaunch buf hcap

/-- A buffer with a decoding is a sequence of records, and its decoding is what they stand for. -/
theorem exists_records_of_decodeFn_eq_some {buf out : Buffer} (h : decodeFn buf = some out) :
    ∃ rs, buf = streamBytes rs ∧ out = rs.flatMap recordOutput := by
  have hwf : wellFormedStream buf = true := by rw [← isSome_decodeFn, h]; rfl
  obtain ⟨rs, rfl⟩ := (wellFormedStream_iff_records buf).mp hwf
  exact ⟨rs, rfl, Option.some.inj (h.symm.trans (decodeFn_streamBytes rs))⟩

/-- Settles O60: an output over `CAP` fails at one of its records; behind records whose output fits, an unfinished
record ends in the error of its length bytes. -/
theorem decodeOverCapacityEndsInError : Obligations.DecodeOverCapacityEndsInError := by
  refine fun s hb hsilent => ⟨fun buf out hdec hcap hover => ?_, fun rs v conts buf hbuf hcap => ?_⟩
  · obtain ⟨rs, rfl, rfl⟩ := exists_records_of_decodeFn_eq_some hdec
    obtain ⟨k, hfail⟩ := (runsWithin_launched_decode (tail := []) hsilent).full hover
    rw [List.append_nil] at hfail
    exact ⟨_, k, _, exec_decode_starts hb hcap, hfail, failedWith_raise _ rfl⟩
  · subst hbuf
    have hrun := runsWithin_launched_decode (rs := rs) (tail := markedByte v :: conts.map markedByte) hsilent
    by_cases hroom : within s.cap (rs.flatMap recordOutput).length
    · obtain ⟨u, hsteps, hu⟩ := hrun.fits hroom
      have hin := hu.blockIn_head (o := .decode) ⟨hsilent, rfl, rfl, rfl⟩
      obtain ⟨acc, val, rfl⟩ := hu
      obtain ⟨k, hfail⟩ := exists_stepsTo_decode_unfinished hin rfl rfl List.drop_left
      simp only [and_iff_right hroom]
      exact ⟨_, _, _, exec_decode_starts hb hcap, stepsTo_trans hsteps hfail, failedWith_raise _ rfl⟩
    · obtain ⟨k, hfail⟩ := hrun.full hroom
      rw [if_neg (mt And.left hroom)]
      exact ⟨_, k, _, exec_decode_starts hb hcap, hfail, failedWith_raise _ rfl⟩

/-- Settles O46: the records are read and expanded, and one step at the end of the input ends the operation; with
`CAP` infinite an unfinished record ends in `MalformedStream`. -/
theorem decodeRunsToItsResult : Obligations.DecodeRunsToItsResult := by
  refine fun s hb hsilent => ⟨fun rs out hdec hcap hroom => ?_, fun buf hdec hinf => ?_⟩
  · obtain rfl := Option.some.inj ((decodeFn_streamBytes rs).symm.trans hdec)
    have hrun := runsWithin_launched_decode (rs := rs) (tail := []) hsilent
    rw [List.append_nil] at hrun
    obtain ⟨u, hsteps, hu⟩ := hrun.fits hroom
    have hin := hu.blockIn_head (o := .decode) ⟨hsilent, rfl, rfl, rfl⟩
    obtain ⟨acc, val, rfl⟩ := hu
    have hend := step_decodeHead_end hin rfl rfl ((memRead_none_iff _ _).mpr le_rfl)
    rw [decodeSteps, Nat.add_comm]
    exact ⟨_, _, exec_decode_starts hb hcap, stepsTo_trans hsteps (stepsTo_one hend), rfl, rfl, rfl, rfl, rfl,
      readResult_output (o := .decode) rfl (by decide) rfl rfl⟩
  · obtain ⟨rs, tail, rfl⟩ := exists_records_and_tail buf
    cases tail with
    | nil => rw [List.map_nil, List.append_nil, decodeFn_streamBytes] at hdec; cases hdec
    | cons v conts =>
      have hwithin (n : Nat) : within s.cap n := by rw [hinf]; rfl
      obtain ⟨-, hunfinished⟩ := decodeOverCapacityEndsInError s hb hsilent
      have hfail := hunfinished rs v conts _ rfl (hwithin _)
      rwa [if_pos ⟨hwithin _, hwithin _⟩] at hfail

end Sys2Proof.Machine
end

section
/-! The laws of the codec (44_properties.md R170, R172, R173, R180), as functions and for the round trip on the
machine. What the encoder writes for one run is decoded to that run with bit 7 cleared, whatever follows it; the
round trip is that law over the maximal runs of the buffer. -/

namespace Sys2Proof.Machine

/-! Clearing bit 7 of every byte. -/

@[simp] theorem strip7_nil : strip7 [] = [] := rfl

@[simp] theorem strip7_append (a b : Buffer) : strip7 (a ++ b) = strip7 a ++ strip7 b := List.map_append

@[simp] theorem strip7_replicate (n : Nat) (v : Byte) :
    strip7 (List.replicate n v) = List.replicate n (clearMark v) := List.map_replicate

@[simp] theorem strip7_length (b : Buffer) : (strip7 b).length = b.length := List.length_map _

theorem clearMark_eq_self_iff (x : Byte) : clearMark x = x ↔ highBit x = false :=
  ⟨fun h => h ▸ highBit_clearMark x, clearMark_of_low x⟩

theorem strip7_eq_self_iff (b : Buffer) : strip7 b = b ↔ sevenBit b = true := by
  simpa [strip7, sevenBit, clearMark_eq_self_iff] using List.map_eq_map_iff (f := clearMark) (g := id) (l := b)

/-! The round trip (R170). -/

theorem decodeFn_runRecord_append (v : Byte) {n : Nat} (hn : 1 ≤ n) (e : Buffer) :
    decodeFn (runRecord v n ++ e) = (decodeFn e).map (List.replicate n (clearMark v) ++ ·) := by
  cases hlit : literalRun n v with
  | true =>
    obtain ⟨rfl, hle⟩ := (literalRun_iff n v).mp hlit
    have hlow := (highBit_false_iff v).mpr hle
    rw [runRecord, if_pos hlit, clearMark_of_low v hlow]
    exact decodeFn_cons_low e hlow
  | false =>
    have hlen : vldecFn (vlencFn n ++ e) 0 = some (n, (vlencFn n).length) := by
      simpa using vldecUndoesVlenc [] e n hn
    have hrun := decodeFn_cons_high_some (highBit_markByte v) hlen
    rw [List.drop_left, clearMark_markByte] at hrun
    rwa [runRecord, if_neg (Bool.eq_false_iff.mp hlit)]

/-- An encoding is decoded by itself, whatever bytes follow it. -/
theorem decodeFn_encodeFn_append (b e : Buffer) :
    decodeFn (encodeFn b ++ e) = (decodeFn e).map (strip7 b ++ ·) := by
  induction b using run_induction with
  | nil => simp
  | run v n b hn hmax ih =>
    rw [encodeFn_replicate_append hn hmax, List.append_assoc, decodeFn_runRecord_append v hn, ih, Option.map_map,
      strip7_append, strip7_replicate]
    simp only [Function.comp_def, List.append_assoc]

theorem decodeFn_encodeFn (b : Buffer) : decodeFn (encodeFn b) = some (strip7 b) := by
  simpa using decodeFn_encodeFn_append b []

/-- Settles O54: run by run, and a buffer is kept exactly where there is no bit 7 to clear. -/
theorem roundTripClearsBit7 : Obligations.RoundTripClearsBit7 := by
  refine fun b => ⟨decodeFn_encodeFn b, strip7_length b, ?_⟩
  rw [decodeFn_encodeFn, Option.some_inj, strip7_eq_self_iff]

/-! Buffers without adjacent repeats (R172). -/

theorem runRecord_one_low {v : Byte} (h : highBit v = false) : runRecord v 1 = [v] := by
  simp [runRecord, literalRun, h]

theorem runRecord_one_length (v : Byte) : (runRecord v 1).length = if v.toNat ≤ 0x7F then 1 else 2 := by
  simp [runRecord_length v le_rfl, literalRun_iff, lengthBytes]

/-- Without adjacent repeats every byte is a maximal run of its own. -/
theorem encodeFn_of_isChain_ne {b : Buffer} (h : b.IsChain (· ≠ ·)) :
    encodeFn b = b.flatMap (runRecord · 1) := by
  induction b with
  | nil => rfl
  | cons v b ih =>
    obtain ⟨hnext, hrest⟩ := List.isChain_cons.mp h
    have hmax : b.head? ≠ some v := fun hv => hnext v hv rfl
    rw [List.flatMap_cons, ← ih hrest]
    exact encodeFn_replicate_append le_rfl hmax

theorem flatMap_runRecord_one_of_sevenBit {b : Buffer} (h : sevenBit b = true) :
    b.flatMap (runRecord · 1) = b := by
  induction b with
  | nil => rfl
  | cons v b ih =>
    obtain ⟨hv, hb⟩ : highBit v = false ∧ sevenBit b = true := by simpa [sevenBit] using h
    rw [List.flatMap_cons, runRecord_one_low hv, ih hb, List.singleton_append]

theorem flatMap_runRecord_one_length (b : Buffer) :
    (b.flatMap (runRecord · 1)).length = b.length + (b.filter fun x => 0x80 ≤ x.toNat).length := by
  induction b with
  | nil => rfl
  | cons v b ih =>
    rw [List.flatMap_cons, List.length_append, ih, runRecord_one_length, List.length_cons, List.filter_cons]
    by_cases hv : 0x80 ≤ v.toNat
    · rw [if_neg (by omega), if_pos (decide_eq_true hv), List.length_cons]
      omega
    · rw [if_pos (by omega), if_neg (by simpa using hv)]
      omega

/-- Settles O57: every byte is encoded as a run of 1, which is the byte itself up to 0x7F and two bytes above. -/
theorem literalOnlyInputIsUnchanged : Obligations.LiteralOnlyInputIsUnchanged := by
  intro b hadj
  have hchain : b.IsChain (· ≠ ·) := by
    refine List.isChain_iff_getElem.mpr fun i hi heq => ?_
    exact hadj i b[i] (List.getElem?_eq_getElem _) (heq ▸ List.getElem?_eq_getElem hi)
  have henc := encodeFn_of_isChain_ne hchain
  refine ⟨fun hseven => ?_, henc ▸ flatMap_runRecord_one_length b⟩
  have hself : encodeFn b = b := henc.trans (flatMap_runRecord_one_of_sevenBit hseven)
  obtain ⟨-, -, hround⟩ := roundTripClearsBit7 b
  have hdec := hround.mpr hseven
  rw [hself] at hdec
  exact ⟨hself, hdec⟩

/-! One run (R173). -/

theorem encodeFn_replicate (v : Byte) {n : Nat} (hn : 1 ≤ n) : encodeFn (List.replicate n v) = runRecord v n := by
  simpa using encodeFn_replicate_append (v := v) (b := []) hn (by simp)

/-- Settles O58: the buffer is one maximal run, and `vlenc` has its closed form with `ceil(N / 127) - 1` chunks. -/
theorem runBoundaryLayout : Obligations.RunBoundaryLayout := by
  intro v n hn
  obtain ⟨hform, hpos, hle, -, hceil⟩ := vlencClosedForm n hn
  have hchunks : (n + 126) / 127 - 1 = (n - 1) / 127 := by rw [← hceil, Nat.add_sub_cancel]
  rw [encodeFn_replicate v hn, runRecord_eq, hchunks]
  refine ⟨fun hlit => if_pos hlit, fun hnot => ⟨?_, hpos, hle⟩⟩
  rw [if_neg hnot, hform, List.append_assoc]

/-! Two pieces one after the other (R180). -/

/-- No run goes across the joint, so the maximal runs of the whole are those of the pieces. -/
theorem encodeFn_append {a b : Buffer} (h : ∀ x, a.getLast? = some x → b.head? ≠ some x) :
    encodeFn (a ++ b) = encodeFn a ++ encodeFn b := by
  induction a using run_induction with
  | nil => rfl
  | run v n a hn hmax ih =>
    obtain rfl | hne := eq_or_ne a []
    · have hjoint : b.head? ≠ some v := h v (by simp [List.getLast?_replicate, Nat.ne_of_gt hn])
      rw [List.append_nil, encodeFn_replicate_append hn hjoint, encodeFn_replicate v hn]
    · have hlast : (List.replicate n v ++ a).getLast? = a.getLast? := List.getLast?_append_of_ne_nil _ hne
      have hmax' : (a ++ b).head? ≠ some v := by rwa [List.head?_append_of_ne_nil _ hne]
      rw [List.append_assoc, encodeFn_replicate_append hn hmax', encodeFn_replicate_append hn hmax,
        ih (hlast ▸ h), List.append_assoc]

/-- Settles O59: a well-formed stream is records, which are decoded by themselves; and an encoding is decoded by
itself, whatever bytes follow it. -/
theorem concatenationOfStreamsAndBuffers : Obligations.ConcatenationOfStreamsAndBuffers := by
  refine ⟨fun e e' hwf => ?_, fun a b => ⟨fun hjoint => encodeFn_append fun x hx => ?_, decodeFn_encodeFn _, ?_⟩⟩
  · obtain ⟨rs, rfl⟩ := (wellFormedStream_iff_records e).mp hwf
    rw [decodeFn_streamBytes_append, decodeFn_streamBytes]
    cases decodeFn e' <;> rfl
  · obtain rfl | rfl | hne := hjoint
    · cases hx
    · nofun
    · exact hx ▸ hne.symm
  · rw [decodeFn_encodeFn_append, decodeFn_encodeFn, strip7_append, Option.map_some]

/-! The round trip on the machine (R170, R41). -/

/-- A finished `ENCODE` has its result in `OUT`, and has changed neither the host nor `CAP`. -/
theorem EncodeDone.result_and_frame {p : Nat} {out : Buffer} {s u : State} (h : EncodeDone p out s u) :
    u.st = .done ∧ u.out = some out ∧ u.host = s.host ∧ u.cap = s.cap := by
  obtain ⟨acc, val, rfl⟩ := h
  exact ⟨rfl, rfl, rfl, rfl⟩

/-- Settles O47: `ENCODE` leaves the host silent and `CAP` as it was, and what it leaves in `OUT` is records, which
`DECODE` takes to the buffer of the round-trip law. -/
theorem machineRoundTripClearsBit7 : Obligations.MachineRoundTripClearsBit7 := by
  intro s buf hb hsilent hinf
  have hwithin {u : State} (hu : u.cap = s.cap) (n : Nat) : within u.cap n := by rw [hu, hinf]; rfl
  obtain ⟨-, -, -, hlaunch, -⟩ := launchStartsTheOperation s hb
  obtain ⟨u, hsteps, hdone⟩ := (runsWithin_launched_encode hsilent (hwithin rfl buf.length)).fits (hwithin rfl _)
  obtain ⟨hst, hout, hhost, hcap⟩ := hdone.result_and_frame
  obtain ⟨rs, hrecords, -⟩ := exists_canonical_records buf
  have hround := decodeFn_encodeFn buf
  rw [hrecords] at hround hout
  obtain ⟨hdecode, -⟩ := decodeRunsToItsResult u (hst ▸ nofun) (hhost.trans hsilent)
  obtain ⟨t', u', hexec, hsteps', hst', -, -, hout', -⟩ := hdecode rs _ hround (hwithin hcap _) (hwithin hcap _)
  exact ⟨_, _, u, _, hlaunch buf (hwithin rfl _), hsteps, hst, hout, t', _, u', hexec, hsteps', hst', hout'⟩

end Sys2Proof.Machine
end

section
/-! The errors (60_exceptions.md R192 to R198): a launch of an unassigned code or with an operand over `CAP`, an append
without room, and what any step that enters `ERR` leaves. The last is said once for each shared operation, then for each
stream byte, step rule and launch. -/

namespace Sys2Proof.Machine

/-! Launches (R195, R196). -/

/-- The unassigned codes (R89). -/
theorem ofCode_eq_none_iff (c : BitVec 3) : Operation.ofCode c = none ↔ c ∈ [0, 6, 7] := by
  revert c; decide

theorem decodeCommand_of_ofCode_none {c : BitVec 3} (o : Operands) (h : Operation.ofCode c = none) :
    decodeCommand c o = .error (.unassignedCode c) := by
  rw [decodeCommand, h]

/-- Settles O10: a code decodes exactly if it is assigned, and the launch of one that does not fails with `BadOp`. -/
theorem unassignedCodeFailsWithBadOp : Obligations.UnassignedCodeFailsWithBadOp := by
  intro s c o rest hh
  rw [← ofCode_eq_none_iff]
  refine ⟨fun hnone hb => ?_, fun hassigned => ?_⟩
  · have hstep := step_launch_unassigned hh (decodeCommand_of_ofCode_none o hnone)
    exact ⟨_, hstep.trans (congrArg _ (launchUnassigned_ready hb)), failedWith_failLaunch c .badOp _⟩
  · cases hd : decodeCommand c o with
    | ok i => exact ⟨i, rfl⟩
    | error e => exact absurd (ofCode_none_of_decodeCommand_error hd) hassigned

/-- An operand over `CAP` fails a launch whatever its own precondition says (R196, R198). -/
theorem launch_fails_overCapacity {o : Operation} {sizes : List Nat} {bad : Option ErrCode} {ph : Phase} {b : Buffer}
    {p n : Nat} {s : State} (hb : s.st ≠ .busy) (hc : ¬ ∀ m ∈ sizes, within s.cap m) :
    ∃ t, launch o sizes bad ph b p n s = .next t ∧ failedWith o.code .capacityExceeded s t :=
  ⟨_, launch_overCapacity hb (by simpa using hc), failedWith_failLaunch o.code .capacityExceeded s⟩

/-- Settles O15: each command is a launch that tests its own operands against `CAP` first. -/
theorem operandOverCapacityFailsTheLaunch : Obligations.OperandOverCapacityFailsTheLaunch := by
  refine fun s hb => ⟨fun buf start hc => ?_, fun n hc => ?_, fun buf pos hc => ?_, fun buf hc => ?_,
    fun buf hc => ?_⟩
  · rw [exec_scan]; exact launch_fails_overCapacity hb (by simpa using hc)
  · rw [exec_vlenc]; exact launch_fails_overCapacity hb (by simpa using hc)
  · rw [exec_vldec]; exact launch_fails_overCapacity hb (by simpa using hc)
  · rw [exec_encode]; exact launch_fails_overCapacity hb (by simpa using hc)
  · rw [exec_decode]; exact launch_fails_overCapacity hb (by simpa using hc)

/-! An append without room (R196 (b)). -/

/-- A length byte without room fails, whether it is a continuation byte or the terminator. -/
theorem emitLength_full {s : State} {n : Nat} {out : Buffer} (last : State → StepOutcome) (hn : s.acc = some n)
    (hout : s.out = some out) (hfull : exceeds s.cap (out.length + 1) = true) :
    emitLength s last = .next (raise .capacityExceeded s) := by
  rw [emitLength_of last hn, append_full _ _ hout hfull, append_full _ _ hout hfull, ite_self]

/-- Settles O33: each of the five rules is one append, and an error discards what the rule has written before it. -/
theorem appendOverCapacityRaises : Obligations.AppendOverCapacityRaises := by
  intro s o hout hover
  have hfull : exceeds s.cap (o.length + 1) = true := Bool.eq_true_of_not_eq_false hover
  have hfail {op : Operation} {ph : Phase} (hin : blockIn op ph s)
      (hstep : step s = .next (raise .capacityExceeded s)) :
      ∃ t, step s = .next t ∧ failedWith op.code .capacityExceeded s t :=
    ⟨_, hstep, failedWith_raise _ (op_of_blockIn hin)⟩
  refine ⟨fun n hin hn => hfail hin ?_, fun n hin hn => hfail hin ?_, fun b p n v hin hb hp hn hv hne => hfail hin ?_,
    fun b p x hin hb hp hx hlow => hfail hin ?_, fun n v hin hn hpos hv => hfail hin ?_⟩
  · exact (step_blockIn hin).trans (emitLength_full _ hn hout hfull)
  · exact (step_blockIn hin).trans (emitLength_full _ hn hout hfull)
  · have hhead (x : Byte) (k : State → StepOutcome) :
        append x { s with rp := some (p + n) } k = .next (raise .capacityExceeded s) := append_full x k hout hfull
    rw [step_encode_runEnd hin hb hp hn hv hne, hhead, hhead, ite_self]
  · rw [step_headByte hin hb hp hx (decodeByte_head_low ((highBit_false_iff x).mpr hlow)),
      exec_lit _ (readsByte_head_of_blockIn hin) hp]
    exact append_full (s := { s with rp := some (p + 1) }) _ _ hout hfull
  · rw [step_decodeExp_copy hin hn hv hpos, append_full v _ hout hfull]

/-! Entering `ERR` (R192, R197). -/

/-- If the state is in `ERR`, no register but `ST`, `ERRC` and `OP` holds a value, the error is one that is raised, and
`OP` holds `c`. -/
def CleanError (c : BitVec 3) (t : State) : Prop :=
  t.st = .err → noValues t ∧ t.errc ≠ .noError ∧ t.errc ≠ .invalidInput ∧ t.op = c

theorem cleanError_of_st {c : BitVec 3} {t : State} (h : t.st ≠ .err) : CleanError c t := fun herr => absurd herr h

theorem cleanError_raise {e : ErrCode} (s : State) (hno : e ≠ .noError) (hinvalid : e ≠ .invalidInput) :
    CleanError s.op (raise e s) :=
  fun _ => ⟨⟨rfl, rfl, rfl, rfl, rfl, rfl, rfl, rfl⟩, hno, hinvalid, rfl⟩

theorem cleanError_capacityExceeded (s : State) : CleanError s.op (raise .capacityExceeded s) :=
  cleanError_raise s nofun nofun

theorem cleanError_malformedStream (s : State) : CleanError s.op (raise .malformedStream s) :=
  cleanError_raise s nofun nofun

section
variable {s : State}

/-! The shared operations. -/

theorem cleanError_append {v : Byte} {k : State → StepOutcome}
    (hk : ∀ out, NextHas (CleanError s.op) (k { s with out := out })) : NextHas (CleanError s.op) (append v s k) :=
  nextHas_need fun _ => nextHas_ite (nextHas_next (cleanError_capacityExceeded s)) (hk _)

theorem cleanError_addAcc {n : Nat} {k : State → StepOutcome}
    (hk : ∀ acc, NextHas (CleanError s.op) (k { s with acc := acc })) : NextHas (CleanError s.op) (addAcc n s k) :=
  nextHas_need fun _ => nextHas_ite (nextHas_next (cleanError_capacityExceeded s)) (hk _)

theorem cleanError_advance {k : State → StepOutcome}
    (hk : ∀ rp, NextHas (CleanError s.op) (k { s with rp := rp })) : NextHas (CleanError s.op) (advance s k) :=
  nextHas_need fun _ => hk _

variable (hs : s.st ≠ .err)
include hs

theorem cleanError_startRun : NextHas (CleanError s.op) (startRun s) := by
  intro t h
  obtain ⟨b, p, v, -, -, -, rfl⟩ := startRun_eq_next h
  exact cleanError_of_st hs

theorem cleanError_countRun {ended : Nat → Nat → Byte → StepOutcome}
    (hended : ∀ p n v, NextHas (CleanError s.op) (ended p n v)) : NextHas (CleanError s.op) (countRun s ended) :=
  nextHas_need fun _ => nextHas_need fun p => nextHas_need fun n => nextHas_need fun v =>
    nextHas_ite (cleanError_addAcc fun _ => nextHas_next (cleanError_of_st hs)) (hended p n v)

theorem cleanError_emitLength {last : State → StepOutcome}
    (hlast : ∀ out, NextHas (CleanError s.op) (last { s with out := out })) :
    NextHas (CleanError s.op) (emitLength s last) :=
  nextHas_need fun _ =>
    nextHas_ite (cleanError_append fun _ => nextHas_next (cleanError_of_st hs)) (cleanError_append hlast)

/-! The stream bytes and the step rules. -/

theorem cleanError_streamByte {i : Instr} (hi : isCommand i = false) : NextHas (CleanError s.op) (exec i s) := by
  cases i with
  | scan | vlenc | vldec | encode | decode => cases hi
  | lit v =>
    refine nextHas_whileReading (cleanError_advance fun rp => ?_)
    exact cleanError_append (s := { s with rp := rp }) fun _ => nextHas_next (cleanError_of_st hs)
  | runtag v => exact nextHas_whileReading (cleanError_advance fun _ => nextHas_next (cleanError_of_st hs))
  | cont x =>
    refine nextHas_whileReading (cleanError_advance fun rp => ?_)
    exact cleanError_addAcc (s := { s with rp := rp }) fun _ => nextHas_next (cleanError_of_st hs)
  | term x =>
    refine nextHas_whileReading (cleanError_advance fun rp => ?_)
    exact cleanError_addAcc (s := { s with rp := rp }) fun _ =>
      nextHas_ite (nextHas_next (cleanError_of_st nofun)) (nextHas_next (cleanError_of_st hs))

theorem cleanError_fetchByte (ph : Phase) {atEnd : StepOutcome} (hend : NextHas (CleanError s.op) atEnd) :
    NextHas (CleanError s.op) (answer (fetchByte ph s atEnd)) := by
  intro t h
  obtain ⟨b, p, -, -, ⟨-, ht⟩ | ⟨x, i, -, hi, ht⟩⟩ := fetchByte_eq_next h
  · exact hend t ht
  · exact cleanError_streamByte hs (isCommand_of_decodeByte hi) t ht

theorem cleanError_encodeHead : NextHas (CleanError s.op) (encodeHead s) :=
  nextHas_need fun _ => nextHas_need fun _ =>
    nextHas_ite (nextHas_next (cleanError_of_st nofun)) (cleanError_startRun hs)

theorem cleanError_encodeCount : NextHas (CleanError s.op) (encodeCount s) :=
  cleanError_countRun hs fun p n _ => nextHas_ite
    (cleanError_append (s := { s with rp := some (p + n) }) fun _ => nextHas_next (cleanError_of_st hs))
    (cleanError_append (s := { s with rp := some (p + n) }) fun _ => nextHas_next (cleanError_of_st hs))

theorem cleanError_decodeExp : NextHas (CleanError s.op) (decodeExp s) :=
  nextHas_need fun _ => nextHas_ite (nextHas_next (cleanError_of_st hs))
    (nextHas_need fun _ => cleanError_append fun _ => nextHas_next (cleanError_of_st hs))

theorem cleanError_stepRule (o : Operation) (ph : Phase) :
    NextHas (CleanError s.op) (answer (stepRule o ph s)) := by
  match o, ph with
  | .scan, .head => exact cleanError_startRun hs
  | .scan, .count => exact cleanError_countRun hs fun _ _ _ => nextHas_next (cleanError_of_st nofun)
  | .vlenc, .len => exact cleanError_emitLength hs fun _ => nextHas_next (cleanError_of_st nofun)
  | .vldec, .len => exact cleanError_fetchByte hs .len (nextHas_next (cleanError_malformedStream s))
  | .encode, .head => exact cleanError_encodeHead hs
  | .encode, .count => exact cleanError_encodeCount hs
  | .encode, .len => exact cleanError_emitLength hs fun _ => nextHas_next (cleanError_of_st hs)
  | .decode, .head => exact cleanError_fetchByte hs .head (nextHas_next (cleanError_of_st nofun))
  | .decode, .len => exact cleanError_fetchByte hs .len (nextHas_next (cleanError_malformedStream s))
  | .decode, .exp => exact cleanError_decodeExp hs
  | .scan, .len | .scan, .exp | .vlenc, .head | .vlenc, .count | .vlenc, .exp | .vldec, .head
  | .vldec, .count | .vldec, .exp | .encode, .exp | .decode, .count => rintro _ ⟨⟩

theorem cleanError_blockAction : NextHas (CleanError s.op) (answer (blockAction s)) := by
  intro t h
  obtain ⟨-, rfl⟩ | ⟨o, ph, -, -, -, hrule⟩ := blockAction_eq_next h
  · exact cleanError_of_st hs
  · exact cleanError_stepRule hs o ph t hrule

end

/-! The launches: a busy block stays busy, and any other has the code of the launch in `OP`. -/

theorem cleanError_failLaunch {e : ErrCode} (c : BitVec 3) (s : State) (hno : e ≠ .noError)
    (hinvalid : e ≠ .invalidInput) : CleanError c (failLaunch c e s) :=
  cleanError_raise { s with op := c } hno hinvalid

theorem cleanError_launch {o : Operation} {sizes : List Nat} {bad : Option ErrCode} {ph : Phase} {b : Buffer}
    {p n : Nat} {s : State} (hbad : ∀ e, bad = some e → e ≠ .noError ∧ e ≠ .invalidInput) (hs : s.st ≠ .err) :
    NextHas (CleanError o.code) (launch o sizes bad ph b p n s) := by
  obtain ⟨-, hl⟩ | ⟨-, -, hl⟩ | ⟨-, -, e, he, hl⟩ | ⟨-, -, -, hl⟩ := launch_cases o sizes bad ph b p n s
  · exact hl ▸ nextHas_next (cleanError_of_st hs)
  · exact hl ▸ nextHas_next (cleanError_failLaunch _ _ nofun nofun)
  · obtain ⟨hno, hinvalid⟩ := hbad e he
    exact hl ▸ nextHas_next (cleanError_failLaunch _ _ hno hinvalid)
  · exact hl ▸ nextHas_next (cleanError_of_st nofun)

/-- The precondition failures of `SCAN` and `VLENC` are errors that are raised (R194); the other commands have none. -/
theorem cleanError_command {c : BitVec 3} {o : Operands} {i : Instr} {s : State} (hi : decodeCommand c o = .ok i)
    (hs : s.st ≠ .err) : NextHas (CleanError c) (exec i s) := by
  obtain ⟨rfl, rfl⟩ | ⟨rfl, rfl⟩ | ⟨rfl, rfl⟩ | ⟨rfl, rfl⟩ | ⟨rfl, rfl⟩ := decodeCommand_eq_ok hi
  · refine cleanError_launch (fun e he => ?_) hs
    obtain ⟨-, ⟨⟩⟩ := Option.ite_none_right_eq_some.mp he
    exact ⟨nofun, nofun⟩
  · refine cleanError_launch (fun e he => ?_) hs
    obtain ⟨-, ⟨⟩⟩ := Option.ite_none_right_eq_some.mp he
    exact ⟨nofun, nofun⟩
  · rw [exec_vldec]; exact cleanError_launch nofun hs
  · rw [exec_encode]; exact cleanError_launch nofun hs
  · rw [exec_decode]; exact cleanError_launch nofun hs

theorem cleanError_launchUnassigned {c : BitVec 3} {s : State} (hs : s.st ≠ .err) :
    CleanError c (launchUnassigned c s) := by
  by_cases hb : s.st = .busy
  · rw [launchUnassigned_busy hb]; exact cleanError_of_st hs
  · rw [launchUnassigned_ready hb]; exact cleanError_failLaunch c s nofun nofun

/-- Settles O34: a step into `ERR` is the block's, which keeps `OP`, or a launch that fails, which a busy block does
not make; a reset and a read do not enter `ERR`. -/
theorem errorEntryLeavesOnlyTheCode : Obligations.ErrorEntryLeavesOnlyTheCode := by
  intro s t hs h herr
  obtain ⟨u, hu, h⟩ | ⟨rest, hh, rfl⟩ | ⟨c, o, rest, i, hh, hi, h⟩ | ⟨c, o, rest, e, hh, he, rfl⟩ |
    ⟨rest, hh, rfl⟩ | ⟨rest, hh, rfl⟩ := step_eq_next h
  · have hsame : u.st = s.st ∧ u.op = s.op := by obtain ⟨-, rfl⟩ | ⟨rest, -, rfl⟩ := hu <;> exact ⟨rfl, rfl⟩
    obtain ⟨hst, hop⟩ := hsame
    obtain ⟨hnone, hno, hinvalid, hkeep⟩ := cleanError_blockAction (hst ▸ hs) t h herr
    exact ⟨hnone, hno, hinvalid, fun _ => hkeep.trans hop⟩
  · cases herr
  · obtain ⟨hnone, hno, hinvalid, -⟩ := cleanError_command (s := { s with host := rest }) hi hs t h herr
    refine ⟨hnone, hno, hinvalid, fun hb => ?_⟩
    have hbusy := exec_command_busy (s := { s with host := rest }) (isCommand_of_decodeCommand hi) hb
    cases h.symm.trans hbusy
    rfl
  · obtain ⟨hnone, hno, hinvalid, -⟩ := cleanError_launchUnassigned (s := { s with host := rest }) (c := c) hs herr
    refine ⟨hnone, hno, hinvalid, fun hb => ?_⟩
    rw [launchUnassigned_busy]
    exact hb
  · exact absurd herr hs
  · exact absurd herr hs

end Sys2Proof.Machine
end

section
/-! Every operation ends (70_reset_and_hazards.md R233, 44_properties.md R178). One measure serves all five operations,
lexicographic as the table of R233 has it: the bytes of `IN` not yet passed, then the phase, then what is left to do
within the phase. Every step of an operation in flight ends it or lowers the measure. -/

namespace Sys2Proof.Machine

/-! The measure. -/

/-- `|IN| - RP`. -/
def unread (s : State) : Nat := (s.inp.getD []).length - s.rp.getD 0

/-- The order the phases have while `RP` stands still: a length or an expansion leads on to `HEAD`, and `HEAD` to
`COUNT`. -/
def phaseRank (s : State) : Nat :=
  match s.ph with
  | some .len | some .exp => 2
  | some .head => 1
  | some .count | none => 0

/-- What is left to do within the phase: bytes to count, or length to write or to expand. -/
def pending (s : State) : Nat :=
  match s.ph with
  | some .count => unread s - s.acc.getD 0
  | some .head | some .len | some .exp | none => s.acc.getD 0

/-- The measure of R233. -/
def workLeft (s : State) : ℕ ×ₗ ℕ ×ₗ ℕ := toLex (unread s, toLex (phaseRank s, pending s))

/-- `t` ends the operation of `s`, or goes on with it with less work left. -/
def Advances (s t : State) : Prop := ended t = true ∨ t.st = s.st ∧ workLeft t < workLeft s

section
variable {s t u : State}

theorem unread_of {b : Buffer} {p : Nat} (hb : s.inp = some b) (hp : s.rp = some p) : unread s = b.length - p := by
  simp [unread, hb, hp]

theorem pending_of_count {n : Nat} (hph : s.ph = some .count) (hn : s.acc = some n) : pending s = unread s - n := by
  simp [pending, hph, hn]

/-! The ways to advance. -/

theorem advances_finish (u : State) : Advances s (finish u) := .inl rfl

theorem advances_raise (e : ErrCode) (u : State) : Advances s (raise e u) := .inl rfl

theorem advances_of_unread_lt (hst : t.st = s.st) (h : unread t < unread s) : Advances s t :=
  .inr ⟨hst, Prod.Lex.toLex_lt_toLex.mpr (.inl h)⟩

theorem advances_of_phaseRank_lt (hst : t.st = s.st) (hu : unread t = unread s) (h : phaseRank t < phaseRank s) :
    Advances s t :=
  .inr ⟨hst, Prod.Lex.toLex_lt_toLex.mpr (.inr ⟨hu, Prod.Lex.toLex_lt_toLex.mpr (.inl h)⟩)⟩

theorem advances_of_pending_lt (hst : t.st = s.st) (hu : unread t = unread s) (hph : t.ph = s.ph)
    (h : pending t < pending s) : Advances s t := by
  have hrank : phaseRank t = phaseRank s := by unfold phaseRank; rw [hph]
  exact .inr ⟨hst, Prod.Lex.toLex_lt_toLex.mpr (.inr ⟨hu, Prod.Lex.toLex_lt_toLex.mpr (.inr ⟨hrank, h⟩)⟩)⟩

/-- A smaller `ACC` advances a phase that works it off. -/
theorem advances_of_acc_lt {ph : Phase} {n m : Nat} {out : Option Buffer} (hph : s.ph = some ph)
    (hcount : ph ≠ .count) (hn : s.acc = some n) (h : m < n) : Advances s { s with out := out, acc := some m } := by
  refine advances_of_pending_lt rfl rfl rfl ?_
  cases ph with
  | count => exact absurd rfl hcount
  | head | len | exp => simpa [pending, hph, hn] using h

/-- A greater `RP` within the input advances, whatever becomes of the phase and of `ACC`. -/
theorem advances_of_rp_lt {b : Buffer} {p q : Nat} (hb : s.inp = some b) (hp : s.rp = some p) (hlt : p < q)
    (hle : q ≤ b.length) (hst : t.st = s.st) (hb' : t.inp = some b) (hq : t.rp = some q) : Advances s t := by
  refine advances_of_unread_lt hst ?_
  rw [unread_of hb hp, unread_of hb' hq]
  omega

/-! The shared operations. -/

theorem advances_append {v : Byte} {k : State → StepOutcome}
    (hk : ∀ out, NextHas (Advances s) (k { u with out := out })) : NextHas (Advances s) (append v u k) :=
  nextHas_need fun _ => nextHas_ite (nextHas_next (advances_raise _ u)) (hk _)

theorem advances_addAcc {n : Nat} {k : State → StepOutcome}
    (hk : ∀ acc, NextHas (Advances s) (k { u with acc := acc })) : NextHas (Advances s) (addAcc n u k) :=
  nextHas_need fun _ => nextHas_ite (nextHas_next (advances_raise _ u)) (hk _)

/-- From `HEAD` on to `COUNT` (R102, R137). -/
theorem advances_startRun (hph : s.ph = some .head) : NextHas (Advances s) (startRun s) := by
  intro t h
  obtain ⟨b, p, v, -, -, -, rfl⟩ := startRun_eq_next h
  exact advances_of_phaseRank_lt rfl rfl (by simp [phaseRank, hph])

/-- An equal byte is one byte less to count (R103, R138). -/
theorem advances_countRun {atEnd : Nat → Nat → Byte → StepOutcome} (hph : s.ph = some .count)
    (hend : ∀ p n v, s.rp = some p → s.acc = some n → NextHas (Advances s) (atEnd p n v)) :
    NextHas (Advances s) (countRun s atEnd) := by
  intro t h
  obtain ⟨b, p, n, v, hb, hp, hn, -, ⟨hx, h⟩ | ⟨-, h⟩⟩ := countRun_eq_next h
  · obtain ⟨a, ha, ⟨-, rfl⟩ | ⟨-, ⟨⟩⟩⟩ := addAcc_eq_next h
    · exact advances_raise _ s
    · obtain rfl : n = a := Option.some.inj (hn.symm.trans ha)
      have hlt := lt_length_of_memRead hx
      refine advances_of_pending_lt rfl rfl rfl ?_
      rw [pending_of_count hph hn, pending_of_count (s := { s with acc := some (n + 1) }) hph rfl,
        unread_of (s := { s with acc := some (n + 1) }) hb hp, unread_of hb hp]
      omega
  · exact hend p n v hp hn t h

/-- A continuation byte takes 127 off the length (R114, R139). -/
theorem advances_emitLength {last : State → StepOutcome} (hph : s.ph = some .len)
    (hlast : ∀ out, NextHas (Advances s) (last { s with out := out })) : NextHas (Advances s) (emitLength s last) := by
  intro t h
  obtain ⟨n, hn, ⟨hover, h⟩ | ⟨-, h⟩⟩ := emitLength_eq_next h
  · have hlt : n - Config.chunk < n := by rw [overChunk_iff] at hover; unfold Config.chunk; omega
    refine advances_append (fun _ => ?_) t h
    exact nextHas_next (advances_of_acc_lt hph nofun hn hlt)
  · exact advances_append hlast t h

/-! The stream bytes: each of them is one byte of the input less (R158 to R161). -/

theorem advances_advance {b : Buffer} {p : Nat} {k : State → StepOutcome} (hb : s.inp = some b) (hp : s.rp = some p)
    (hlt : p < b.length)
    (hk : (∀ t, t.st = s.st → t.inp = s.inp → t.rp = some (p + 1) → Advances s t) →
      NextHas (Advances s) (k { s with rp := some (p + 1) })) : NextHas (Advances s) (advance s k) := by
  rw [advance_of k hp]
  exact hk fun t hst hinp hrp => advances_of_rp_lt hb hp (Nat.lt_succ_self p) hlt hst (hinp.trans hb) hrp

theorem advances_streamByte {i : Instr} {b : Buffer} {p : Nat} (hi : isCommand i = false) (hb : s.inp = some b)
    (hp : s.rp = some p) (hlt : p < b.length) : NextHas (Advances s) (exec i s) := by
  cases i with
  | scan | vlenc | vldec | encode | decode => cases hi
  | lit v =>
    exact nextHas_whileReading (advances_advance hb hp hlt fun read =>
      advances_append fun _ => nextHas_next (read _ rfl rfl rfl))
  | runtag v =>
    exact nextHas_whileReading (advances_advance hb hp hlt fun read => nextHas_next (read _ rfl rfl rfl))
  | cont x =>
    exact nextHas_whileReading (advances_advance hb hp hlt fun read =>
      advances_addAcc fun _ => nextHas_next (read _ rfl rfl rfl))
  | term x =>
    exact nextHas_whileReading (advances_advance hb hp hlt fun read => advances_addAcc fun _ =>
      nextHas_ite (nextHas_next (advances_finish _)) (nextHas_next (read _ rfl rfl rfl)))

theorem advances_fetchByte (ph : Phase) {atEnd : StepOutcome} (hend : NextHas (Advances s) atEnd) :
    NextHas (Advances s) (answer (fetchByte ph s atEnd)) := by
  intro t h
  obtain ⟨b, p, hb, hp, ⟨-, ht⟩ | ⟨x, i, hx, hi, ht⟩⟩ := fetchByte_eq_next h
  · exact hend t ht
  · exact advances_streamByte (isCommand_of_decodeByte hi) hb hp (lt_length_of_memRead hx) t ht

/-! The step rules. The invariant is needed for the end of a run in `ENCODE` alone, where `ACC >= 1` is added to `RP`. -/

theorem advances_encodeHead (hph : s.ph = some .head) : NextHas (Advances s) (encodeHead s) :=
  nextHas_need fun _ => nextHas_need fun _ =>
    nextHas_ite (nextHas_next (advances_finish s)) (advances_startRun hph)

theorem advances_encodeCount {rp acc : Nat} {inp out : Buffer} (h : Flight .encode .count rp acc inp out s)
    (hf : inFlight .encode .count rp acc s.val inp out) : NextHas (Advances s) (encodeCount s) := by
  obtain ⟨hone, hle, -⟩ := hf
  refine advances_countRun h.ph_eq fun p n v hp hn => ?_
  obtain rfl : rp = p := Option.some.inj (h.rp_eq.symm.trans hp)
  obtain rfl : acc = n := Option.some.inj (h.acc_eq.symm.trans hn)
  have moved : ∀ out ph, Advances s { s with rp := some (rp + acc), out := out, ph := ph } := fun _ _ =>
    advances_of_rp_lt h.inp_eq hp (Nat.lt_add_of_pos_right hone) hle rfl h.inp_eq rfl
  exact nextHas_ite (advances_append fun _ => nextHas_next (moved _ _))
    (advances_append fun _ => nextHas_next (moved _ _))

/-- A copy is one less to write, and with none left the block goes on to `HEAD` (R157). -/
theorem advances_decodeExp (hph : s.ph = some .exp) : NextHas (Advances s) (decodeExp s) := by
  intro t h
  obtain ⟨n, hn, h⟩ := need_eq_next.mp h
  by_cases hzero : n = 0
  · rw [if_pos hzero] at h
    cases h
    exact advances_of_phaseRank_lt rfl rfl (by simp [phaseRank, hph])
  · rw [if_neg hzero] at h
    have hlt : n - 1 < n := Nat.sub_one_lt hzero
    obtain ⟨v, -, h⟩ := need_eq_next.mp h
    refine advances_append (fun _ => ?_) t h
    exact nextHas_next (advances_of_acc_lt hph nofun hn hlt)

theorem advances_stepRule {o : Operation} {ph : Phase} {rp acc : Nat} {inp out : Buffer}
    (h : Flight o ph rp acc inp out s) (hf : inFlight o ph rp acc s.val inp out) :
    NextHas (Advances s) (answer (stepRule o ph s)) := by
  match o, ph with
  | .scan, .head => exact advances_startRun h.ph_eq
  | .scan, .count => exact advances_countRun h.ph_eq fun _ _ _ _ _ => nextHas_next (advances_finish _)
  | .vlenc, .len => exact advances_emitLength h.ph_eq fun _ => nextHas_next (advances_finish _)
  | .vldec, .len => exact advances_fetchByte .len (nextHas_next (advances_raise _ s))
  | .encode, .head => exact advances_encodeHead h.ph_eq
  | .encode, .count => exact advances_encodeCount h hf
  | .encode, .len =>
    exact advances_emitLength h.ph_eq fun _ =>
      nextHas_next (advances_of_phaseRank_lt rfl rfl (by simp [phaseRank, h.ph_eq]))
  | .decode, .head => exact advances_fetchByte .head (nextHas_next (advances_finish s))
  | .decode, .len => exact advances_fetchByte .len (nextHas_next (advances_raise _ s))
  | .decode, .exp => exact advances_decodeExp h.ph_eq
  | .scan, .len | .scan, .exp | .vlenc, .head | .vlenc, .count | .vlenc, .exp | .vldec, .head
  | .vldec, .count | .vldec, .exp | .encode, .exp | .decode, .count => exact hf.elim

/-- With a silent host the operation in flight takes a step, which advances it. -/
theorem exists_step_advances (hinv : MachineInv s) (hsilent : s.host = []) (hbusy : s.st = .busy) :
    ∃ t, step s = .next t ∧ MachineInv t ∧ t.host = [] ∧ Advances s t := by
  obtain ⟨t, ht, hinv'⟩ := answersInv_step hinv
  have hblock : answer (blockAction s) = .next t := by rw [← step_silent hsilent, ht]
  obtain ⟨-, hhost, -⟩ := hostBlind_blockAction.frame hblock
  obtain ⟨o, ph, rp, acc, inp, out, hfl, hf⟩ := (machineInv_busy_iff hbusy).mp hinv
  rw [blockAction_busy hbusy hfl.op_eq hfl.ph_eq] at hblock
  exact ⟨t, ht, hinv', hhost.trans hsilent, advances_stepRule hfl hf t hblock⟩

end

/-- Settles O40, by induction on the work left. -/
theorem everyOperationEnds : Obligations.EveryOperationEnds := by
  intro s hinv hsilent hbusy
  induction hw : workLeft s using WellFoundedLT.induction generalizing s with
  | ind w ih =>
    obtain ⟨t, ht, hinv', hsilent', hend | ⟨hst, hlt⟩⟩ := exists_step_advances hinv hsilent hbusy
    · exact ⟨1, t, stepsTo_one ht, hend⟩
    · obtain ⟨k, u, hu, hend⟩ := ih _ (hw ▸ hlt) t hinv' hsilent' (hst.trans hbusy) rfl
      exact ⟨1 + k, u, stepsTo_trans (stepsTo_one ht) hu, hend⟩

end Sys2Proof.Machine
end
